-- ==== Sys2Proof/Word.lean ====
section
/-! DEFINITION. The word types of the core (spec/00_scope.md R9 to R13): every quantity is unsigned. -/

namespace Sys2Proof

/-- An 8-bit unit: a register, a memory cell, a sprite row, an assembler byte (R9 `REG_WIDTH`, R31). -/
abbrev Byte := BitVec 8

/-- A 16-bit unit: `pc`, `I`, an instruction word, a host address (R9 `PC_WIDTH`, `I_WIDTH`, R57). -/
abbrev Word := BitVec 16

/-- A 12-bit memory address: JP's operand and the program origin (R9, R60). -/
abbrev Addr12 := BitVec 12

/-- A register index 0 to 15, that is V0 to VF (R18, R61). -/
abbrev RegIdx := Fin 16

/-- `FLAG_REG`: VF, register 15, is also the carry and collision flag (R9, R20). -/
abbrev flagReg : RegIdx := 15

end Sys2Proof
end

