-- ==== Sys2Proof/Syntax.lean ====
section
/-! DEFINITION. The instruction set CHIP8-CORE4 (spec/00_scope.md R3, spec/30_encoding.md R63): one constructor per row of
spec/opcode_table.json. -/

namespace Sys2Proof

/-- The four instructions of the core, each with the operands its encoding carries. -/
inductive Instr where
  /-- CLS: clear the framebuffer (R87). -/
  | cls
  /-- JP nnn: jump to the absolute 12-bit address `nnn` (R89). -/
  | jp (nnn : Addr12)
  /-- ADD Vx, Vy: 8-bit add, carry to VF (R93). -/
  | add (x y : RegIdx)
  /-- DRW Vx, Vy, n: XOR the `n`-row sprite at `I` onto the framebuffer at (`V[x]`, `V[y]`) (R98). -/
  | drw (x y : RegIdx) (n : Fin 16)
deriving DecidableEq, Repr

end Sys2Proof
end

