-- ==== Sys2Proof/WellFormed.lean ====
section
/-! DEFINITION. Well-formed terms: instructions whose operands fit their fields (spec/30_encoding.md R60 to R62), and the
assembly lines of R71 with the operand ranges of R72. -/

namespace Sys2Proof

/-- Every operand of the instruction fits the field that R59 gives it.
The operand types already carry these bounds (R61: "an instruction can never give an invalid register index"), so the check
accepts every term: `Sys2Proof.Laws.instr_wellFormed` says so once. -/
def Instr.WellFormed : Instr → Bool
  | .cls => true
  | .jp nnn => decide (nnn.toNat ≤ 0xFFF)
  | .add x y => decide (x.val ≤ 15) && decide (y.val ≤ 15)
  | .drw x y n => decide (x.val ≤ 15) && decide (y.val ≤ 15) && decide (n.val ≤ 15)

/-- One line of the spec's assembly language (R71), its operands still unbounded numbers: here an operand can fail to fit. -/
inductive AsmLine where
  | cls
  | jp (nnn : Nat)
  | add (x y : Nat)
  | drw (x y n : Nat)
  /-- `.byte b`: one raw byte of the image. -/
  | rawByte (b : Nat)
deriving DecidableEq, Repr

/-- The operand ranges of R72 (the spec's decision D26): a line that fails the check is refused, never masked into its field. -/
def AsmLine.WellFormed : AsmLine → Bool
  | .cls => true
  | .jp nnn => decide (nnn ≤ 0xFFF)
  | .add x y => decide (x ≤ 15) && decide (y ≤ 15)
  | .drw x y n => decide (x ≤ 15) && decide (y ≤ 15) && decide (n ≤ 15)
  | .rawByte b => decide (b ≤ 0xFF)

end Sys2Proof
end

