-- ==== Sys2Proof/Decode.lean ====
section
/-! DEFINITION. Decoding (spec/30_encoding.md R57 to R70, spec/40_fetch_decode_dispatch.md R78), and after it the encoder,
both from the field layout of R59. -/

namespace Sys2Proof

/-- What a 16-bit word decodes to (R69): exactly one instruction, or ILLEGAL(W) under that name. -/
inductive Decoded where
  | instr (i : Instr)
  | illegal (w : Word)
deriving DecidableEq, Repr

/-- `CLS_WORD` (R65; the spec marks the word as general knowledge, decision D6; notes/assumptions/3.md). -/
def clsWord : Word := 0x00E0#16
/-- `JP_OP` (R66; the spec marks the nibble as general knowledge, decision D6; notes/assumptions/3.md). -/
def jpOp : BitVec 4 := 0x1#4
/-- The family nibble of ADD, `8xy4` (R63). -/
def addOp : BitVec 4 := 0x8#4
/-- The function selector of ADD, the fixed low nibble of `8xy4` (R62). -/
def addSel : BitVec 4 := 0x4#4
/-- The family nibble of DRW, `Dxyn` (R63). -/
def drwOp : BitVec 4 := 0xD#4

/-- `op` = W[15:12] (R59). -/
def fieldOp (w : Word) : BitVec 4 := w.extractLsb' 12 4
/-- `x` = W[11:8] (R59, R61). -/
def fieldX (w : Word) : BitVec 4 := w.extractLsb' 8 4
/-- `y` = W[7:4] (R59, R61). -/
def fieldY (w : Word) : BitVec 4 := w.extractLsb' 4 4
/-- `n` = W[3:0] (R59, R62). -/
def fieldN (w : Word) : BitVec 4 := w.extractLsb' 0 4
/-- `nnn` = W[11:0] (R59, R60). -/
def fieldNnn (w : Word) : Addr12 := w.extractLsb' 0 12

/-- Instruction words are big-endian: the byte at the lower address is bits 15:8 (R42, R58). -/
def wordOfBytes (hi lo : Byte) : Word := hi ++ lo
/-- Bits 15:8 of a word, the byte stored first (R42, R73). -/
def wordHi (w : Word) : Byte := w.extractLsb' 8 8
/-- Bits 7:0 of a word, the byte stored second (R42, R73). -/
def wordLo (w : Word) : Byte := w.extractLsb' 0 8

/-- `decode(W)` of R78, in the order of its cases: total, and it reads nothing but `W`. -/
def decodeWord (w : Word) : Decoded :=
  if w = clsWord then .instr .cls
  else if fieldOp w = jpOp then .instr (.jp (fieldNnn w))
  else if fieldOp w = addOp ∧ fieldN w = addSel then .instr (.add (fieldX w).toFin (fieldY w).toFin)
  else if fieldOp w = drwOp then .instr (.drw (fieldX w).toFin (fieldY w).toFin (fieldN w).toFin)
  else .illegal w

/-- Decoding a program image's bytes: the first two are one instruction word, the rest follows (R57, R73). Fewer than two
bytes hold no instruction word. -/
def decodeBytes : List Byte → Option (Decoded × List Byte)
  | hi :: lo :: rest => some (decodeWord (wordOfBytes hi lo), rest)
  | _ => none

/-- An operand 0 to 15 as the four bits of its field (R61, R62). -/
def nibble (k : Fin 16) : BitVec 4 := BitVec.ofFin k

/-- The word of an instruction, assembled from the fields of R59 and the patterns of R63. -/
def encode : Instr → Word
  | .cls => clsWord
  | .jp nnn => jpOp ++ nnn
  | .add x y => wordOfBytes (addOp ++ nibble x) (nibble y ++ addSel)
  | .drw x y n => wordOfBytes (drwOp ++ nibble x) (nibble y ++ nibble n)

/-- A word's two bytes as the program image holds them, high byte first (R73). -/
def bytesOfWord (w : Word) : List Byte := [wordHi w, wordLo w]

/-- One row of spec/opcode_table.json: its mnemonic, and the `match` and `mask` of its words. -/
structure OpcodeRow where
  mnemonic : String
  pattern : Word
  mask : Word
deriving DecidableEq, Repr

/-- spec/opcode_table.json, row by row. -/
def opcodeTable : List OpcodeRow :=
  [⟨"CLS", 0x00E0#16, 0xFFFF#16⟩, ⟨"JP", 0x1000#16, 0xF000#16⟩, ⟨"ADD", 0x8004#16, 0xF00F#16⟩, ⟨"DRW", 0xD000#16, 0xF000#16⟩]

/-- The table's row of an instruction. -/
def opcodeRow : Instr → OpcodeRow
  | .cls => ⟨"CLS", 0x00E0#16, 0xFFFF#16⟩
  | .jp _ => ⟨"JP", 0x1000#16, 0xF000#16⟩
  | .add _ _ => ⟨"ADD", 0x8004#16, 0xF00F#16⟩
  | .drw _ _ _ => ⟨"DRW", 0xD000#16, 0xF000#16⟩

/-- `w` is one of the words of the row: its bits under the mask are the row's pattern. -/
def OpcodeRow.Covers (row : OpcodeRow) (w : Word) : Prop := w &&& row.mask = row.pattern

/-- The instruction word whose bits are `w` as the opcode table numbers them, the bits above `nbits` zero. -/
def tableWord (nbits w : Nat) : Word := BitVec.ofNat 16 (w % 2 ^ nbits)

/-- What the decoder reads from a table row's word, laid out in bytes as the hardware stores it (none where it is illegal). -/
def decodeTableWord (nbits w : Nat) : Option Instr :=
  match decodeBytes (bytesOfWord (tableWord nbits w)) with
  | some (.instr i, _) => some i
  | _ => none

end Sys2Proof
end

