-- ==== Sys2Proof/Config.lean ====
section
/-! DEFINITION. The parameters the spec leaves OPEN (spec/00_scope.md R9; spec/92_eei_decisions.md D1, D2, D17), as one record
of plain data. A core carries its record in `State.params` and no step changes it (R34), so a statement about every state is a
statement about every framebuffer size, edge policy and origin. The spec's default values stand in Machine/Params.lean. -/

namespace Sys2Proof

/-- `FB_EDGE_POLICY` (R103, decision D2): where a sprite pixel past the grid goes. -/
inductive EdgePolicy where
  /-- Each pixel is reduced modulo the grid (the spec's default). -/
  | wrap
  /-- A pixel past the grid is dropped. -/
  | clip
  /-- The sprite's origin is reduced modulo the grid, then pixels past the grid are dropped. -/
  | wrapOriginClip
deriving DecidableEq, Repr

/-- The parameters of one core (R9): fixed for a given core, no register (R34), not core state (R36). -/
structure Params where
  /-- `FB_WIDTH` (decision D1). -/
  fbWidth : Nat
  /-- `FB_HEIGHT` (decision D1). -/
  fbHeight : Nat
  /-- `FB_EDGE_POLICY` (decision D2). -/
  edgePolicy : EdgePolicy
  /-- `PROGRAM_ORIGIN` (decision D17): a memory address, so 12 bits wide. -/
  programOrigin : Addr12
deriving DecidableEq, Repr

/-- A grid has at least one column and one row, so that reduction modulo its size lands on it.
DESIGN CHOICE (safe; notes/assumptions/2.md): the spec states no minimum beyond its examples. -/
abbrev Params.wf (p : Params) : Prop := 0 < p.fbWidth ∧ 0 < p.fbHeight

end Sys2Proof
end

