-- ==== Sys2Proof/Machine/Params.lean ====
section
/-! DEFINITION. The sizes the source fixes and the default values the spec gives its open parameters (spec/00_scope.md R9). -/

namespace Sys2Proof.Machine

/-- `MEM_SIZE`: 4096 bytes, 0x000 to 0xFFF (R9, R31). -/
def memSize : Nat := 4096

/-- The parameters as the spec gives them by default: 64 x 32 (decision D1), `wrap` (D2), origin 200 = 0xC8 (D17 and the
source). The sizes and the policy are the spec's choices, not the source's: notes/assumptions/1.md, 4.md. -/
def Params.spec : Params :=
  { fbWidth := 64, fbHeight := 32, edgePolicy := .wrap, programOrigin := 0x0C8#12 }

/-- `PROGRAM_ORIGIN` as a number: where LOAD's byte 0 goes (R73, R112). -/
def originAddr (p : Params) : Nat := p.programOrigin.toNat

/-- `MAX_LOAD` = `MEM_SIZE - PROGRAM_ORIGIN` (R9, R112). -/
def maxLoad (p : Params) : Nat := memSize - originAddr p

/-- `zext_16(PROGRAM_ORIGIN)`: the reset value of `pc` (R28, R143). -/
def originPc (p : Params) : Word := p.programOrigin.setWidth 16

end Sys2Proof.Machine
end

