-- ==== Sys2Proof/Machine/State.lean ====
section
/-! DEFINITION. The state of the core (spec/10_state.md, summary R38), as plain data. -/

namespace Sys2Proof.Machine

/-- What a memory address reads as when no cell is listed for it: 0x00, the contents INITIALIZE leaves (R31, R143). -/
def Memory.unlisted : Byte := 0x00#8

/-- Memory `M` (R31): the cells that differ from `Memory.unlisted`, by strictly rising address. -/
abbrev Memory := List Host.Cell

/-- The canonical form: addresses strictly rising and below `MEM_SIZE`, no cell equal to what an unlisted address reads as. -/
abbrev Memory.wf (m : Memory) : Prop :=
  m.Pairwise (fun a b => a.1 < b.1) ∧ ∀ c ∈ m, c.1 < memSize ∧ c.2 ≠ Memory.unlisted

/-- A framebuffer coordinate: (column `px`, row `py`), as in the source's `[x][y]` (R12, R32). -/
abbrev Pixel := Nat × Nat

/-- Row-major order of coordinates: the order in which lit pixels are listed. -/
abbrev Pixel.Before (p q : Pixel) : Prop := p.2 < q.2 ∨ (p.2 = q.2 ∧ p.1 < q.1)

/-- The framebuffer `FB` (R32): the pixels that are 1, in row-major order; every other cell of the grid is 0. -/
abbrev Framebuffer := List Pixel

/-- The canonical form: lit pixels in strictly rising row-major order, each on the grid. -/
abbrev Framebuffer.wf (p : Params) (fb : Framebuffer) : Prop :=
  fb.Pairwise Pixel.Before ∧ ∀ q ∈ fb, q.1 < p.fbWidth ∧ q.2 < p.fbHeight

/-- `FAULT_CAUSE` (R33, R129). -/
inductive FaultCause where
  | none
  | illegalInstruction
deriving DecidableEq, Repr

/-- The fault latch (R33, the spec's own state by decision D5): the sticky record of an illegal instruction. -/
structure FaultLatch where
  /-- `FAULT`, 1 bit, sticky. -/
  fault : Bool
  /-- `FAULT_CAUSE`. -/
  cause : FaultCause
  /-- `FAULT_PC`: the `pc` of the illegal word. -/
  pc : Word
  /-- `FAULT_WORD`: the illegal word. -/
  word : Word
deriving DecidableEq, Repr

/-- The latch as INITIALIZE leaves it (R33, R143). -/
def FaultLatch.clear : FaultLatch := { fault := false, cause := .none, pc := 0x0000#16, word := 0x0000#16 }

/-- Everything the spec gives one core, and the core's fixed parameters.
Separate states are separate cores (R37): nothing is shared. -/
structure State where
  /-- The core's parameters (R9): configuration, not core state (R36); no command writes it (R34; notes/assumptions/1.md). -/
  params : Params
  /-- Whether INITIALIZE has run (R35, R80, R143). -/
  initialized : Bool
  /-- The register file V0 to VF, 16 registers of 8 bits (R18); VF is also the flag (R20). -/
  v : Vector Byte 16
  /-- The index register `I`, 16 bits, all held (R30). -/
  i : Word
  /-- The program counter, 16 bits, all held (R23, R27). -/
  pc : Word
  /-- Memory `M`, 4096 bytes (R31). -/
  mem : Memory
  /-- The framebuffer `FB`, `FB_WIDTH` x `FB_HEIGHT` pixels (R32). -/
  fb : Framebuffer
  /-- The fault latch (R33). -/
  latch : FaultLatch
deriving DecidableEq, Repr

/-- Machine-stopping faults: NONE exists on this core. The one exception of the spec, IllegalInstruction, sets the fault latch
and is a next state (R129, R130); no fetch, jump, ADD or DRW can fault (R132). So no one raises one, and the type is empty. -/
inductive Fault where
deriving DecidableEq, Repr

/-- Why the model gives a step or a command no meaning. -/
inductive Refusal where
  /-- Raised by an arm of `exec` whose instruction has no meaning yet; no arm does. Safe. -/
  | notModelled (mnemonic : String)
  /-- Raised by STEP, and by every other host command but INITIALIZE, before the first INITIALIZE: "refuses every command
  other than INITIALIZE before it" (R35, R80, R111, decision D16). Safe. -/
  | notInitialized
deriving DecidableEq, Repr

/-- The core right after INITIALIZE with the spec's default parameters (R143; R22, R28, R30 to R33). Every value is the
spec's. -/
def State.reset : State :=
  { params := Params.spec
    initialized := true
    v := Vector.replicate 16 0x00#8
    i := 0x0000#16
    pc := originPc Params.spec
    mem := []
    fb := []
    latch := FaultLatch.clear }

end Sys2Proof.Machine
end

