-- ==== Sys2Proof/Machine/Ops.lean ====
section
/-! DEFINITION. The named operations over registers, `pc`, memory, framebuffer and fault latch that the instructions, STEP and
the host port share. The paths of spec/45_host_interface.md R128 are these operations. -/

namespace Sys2Proof.Machine

/-! ### Registers -/

/-- Path "register read": `V[r]` (R12, R18). No register is hardwired. -/
def State.readReg (s : State) (r : RegIdx) : Byte := s.v[r]

/-- Path "register write": `V[r] <- b` (R12, R18). -/
def State.writeReg (s : State) (r : RegIdx) (b : Byte) : State := { s with v := s.v.set r b }

/-- `I <- w`; no instruction does it, only the host's SET_I (R30, R121). -/
def State.setIndex (s : State) (w : Word) : State := { s with i := w }

/-! ### Program counter -/

/-- `pc <- target` (R15). -/
def State.setPc (s : State) (target : Word) : State := { s with pc := target }

/-- `advance_pc`: `pc <- trunc_16(pc + 2)` (R82, R27). -/
def State.advancePc (s : State) : State := s.setPc (s.pc + 2#16)

/-! ### Memory -/

/-- The value of the cell with key `a`, or what an unlisted cell reads as. -/
def Memory.readCell : Memory → Nat → Byte
  | [], _ => Memory.unlisted
  | (k, b) :: rest, a => if k = a then b else Memory.readCell rest a

/-- Sets the cell with key `a` to `b`, keeping the canonical form: a cell equal to `Memory.unlisted` is not listed. -/
def Memory.writeCell : Memory → Nat → Byte → Memory
  | [], a, b => if b = Memory.unlisted then [] else [(a, b)]
  | (k, c) :: rest, a, b =>
    if a < k then (if b = Memory.unlisted then (k, c) :: rest else (a, b) :: (k, c) :: rest)
    else if a = k then (if b = Memory.unlisted then rest else (a, b) :: rest)
    else (k, c) :: Memory.writeCell rest a b

/-- Every address the core or the host forms is reduced modulo `MEM_SIZE`, never rejected (R46, decision D3). -/
def reduceAddr (a : Nat) : Nat := a % memSize

/-- `MemRead(a, 1)` = `M[a mod MEM_SIZE]` (R14, R46). It has no side effect (R48). -/
def State.memRead (s : State) (a : Nat) : Byte := s.mem.readCell (reduceAddr a)

/-- `MemWrite(a, 1, b)`: `M[a mod MEM_SIZE] <- b` (R14, R46). Only host commands use it. -/
def State.memWrite (s : State) (a : Nat) (b : Byte) : State := { s with mem := s.mem.writeCell (reduceAddr a) b }

/-- Bytes written to consecutive addresses from `a`, in order (LOAD's loop, R112). -/
def State.memWriteAll (s : State) (a : Nat) : List Byte → State
  | [] => s
  | b :: rest => (s.memWrite a b).memWriteAll (a + 1) rest

/-- Path "fetch read": the word at `pc`, first byte most significant (R58, R77). Even and odd `pc` alike (R26, R45), both
addresses reduced (R47). -/
def State.fetchWord (s : State) : Word := wordOfBytes (s.memRead s.pc.toNat) (s.memRead (s.pc.toNat + 1))

/-! ### Framebuffer -/

/-- `FB[px][py]` as 0 or 1 (R12, R32). -/
def Framebuffer.lit (fb : Framebuffer) (q : Pixel) : Bool := fb.contains q

/-- `FB[px][py] <- FB[px][py] XOR 1`, keeping the canonical form (path "pixel read-modify-write", R98, R101). -/
def Framebuffer.flip : Framebuffer → Pixel → Framebuffer
  | [], q => [q]
  | p :: rest, q =>
    if p = q then rest
    else if Pixel.Before q p then q :: p :: rest
    else p :: Framebuffer.flip rest q

/-- Every cell 0 (path "clear", R87). -/
def Framebuffer.blank : Framebuffer := []

/-- The framebuffer replaced as a whole. -/
def State.setFb (s : State) (fb : Framebuffer) : State := { s with fb := fb }

/-! ### Exception and reset -/

/-- TAKING AN EXCEPTION: `raise IllegalInstruction(pc, W)` (R130, decision D5). It sets the latch and nothing else: no saved
status, no mode change, no transfer of control (R135). There is no return from it (R136): only INITIALIZE, `initCore` below,
clears the latch. -/
def State.raiseIllegal (s : State) (pc w : Word) : State :=
  { s with latch := { fault := true, cause := .illegalInstruction, pc := pc, word := w } }

/-- What a STEP issued while `FAULT = 1` does: no state change (R81, decision D5). -/
def State.stepFaulted (s : State) : State := s

/-- `FAULT_CAUSE` as its code (R129): NONE is 0, ILLEGAL_INSTRUCTION is 1. -/
def FaultCause.code : FaultCause → Nat
  | .none => 0
  | .illegalInstruction => 1

/-- INITIALIZE (R143): every piece of core state takes its reset value; the core's parameters stay. -/
def State.initCore (s : State) : State :=
  { params := s.params
    initialized := true
    v := Vector.replicate 16 0x00#8
    i := 0x0000#16
    pc := originPc s.params
    mem := []
    fb := Framebuffer.blank
    latch := FaultLatch.clear }

end Sys2Proof.Machine
end

