-- ==== Sys2Proof/Machine/Operands.lean ====
section
/-! DEFINITION. The operand forms of the instructions (spec/30_encoding.md R60 to R63): a register pair, an absolute address,
and the sprite's bytes and coordinates. -/

namespace Sys2Proof.Machine

/-- The two register operands, both read before any write (R93, R94, R106). -/
def State.regPair (s : State) (x y : RegIdx) : Byte × Byte := (s.readReg x, s.readReg y)

/-- `target = zext_16(nnn)`: absolute, neither shifted, scaled nor added to `pc` (R60). -/
def jumpTarget (nnn : Addr12) : Word := nnn.setWidth 16

/-- Path "sprite read": row `r` of the sprite is the byte at `(I + r) mod MEM_SIZE` (R98, R105). -/
def State.spriteRow (s : State) (r : Nat) : Byte := s.memRead (s.i.toNat + r)

/-- The sprite bit of column offset `c`: bit `7 - c`, so the most significant bit is leftmost (R100). -/
def spriteBit (row : Byte) (c : Nat) : Bool := row.getLsbD (7 - c)

/-- A raw coordinate kept only where it lies on the grid. -/
def onGrid (p : Params) (u v : Nat) : Option Pixel := if u < p.fbWidth ∧ v < p.fbHeight then some (u, v) else none

/-- `place` (R103): the cell of column offset `c` and row offset `r` of a sprite at (`cx`, `cy`); none where the pixel is off
the grid. Under `wrap` the reduced pixel is on every grid that has a cell. -/
def place (p : Params) (cx cy : Byte) (r c : Nat) : Option Pixel :=
  match p.edgePolicy with
  | .wrap => some ((cx.toNat + c) % p.fbWidth, (cy.toNat + r) % p.fbHeight)
  | .clip => onGrid p (cx.toNat + c) (cy.toNat + r)
  | .wrapOriginClip => onGrid p (cx.toNat % p.fbWidth + c) (cy.toNat % p.fbHeight + r)

end Sys2Proof.Machine
end

