-- ==== Sys2Proof/Machine/Flags.lean ====
section
/-! DEFINITION. The flag computations (spec/10_state.md R29): VF is the only flag, written by ADD (carry) and DRW
(collision). -/

namespace Sys2Proof.Machine

/-- The exact sum of two registers, 0 to 510 (R93). -/
def exactSum (a b : Byte) : Nat := a.toNat + b.toNat

/-- `trunc_8(s)`: the 8-bit wraparound result (R93, R96). -/
def addResult (a b : Byte) : Byte := BitVec.ofNat 8 (exactSum a b)

/-- The carry: the exact sum is greater than 255 (R93). -/
def addCarry (a b : Byte) : Bool := decide (exactSum a b > 255)

/-- A flag outcome as the byte VF receives: 0x01 or 0x00 (R93, R98). -/
def flagByte (f : Bool) : Byte := if f then 0x01#8 else 0x00#8

/-- `V[15] <- flag`, unconditionally (R20). -/
def State.writeFlag (s : State) (f : Bool) : State := s.writeReg flagReg (flagByte f)

end Sys2Proof.Machine
end

