-- ==== Sys2Proof/Machine/ClearScreen.lean ====
section
/-! DEFINITION. The clear-screen family (spec/41_clear_screen.md). -/

namespace Sys2Proof.Machine

/-- CLS (R87, R88): every framebuffer cell to 0, then `advance_pc`. VF is not written. -/
def execCls (s : State) : Host.Outcome State Fault Refusal :=
  .next (s.setFb Framebuffer.blank).advancePc

end Sys2Proof.Machine
end

