-- ==== Sys2Proof/Machine/Jump.lean ====
section
/-! DEFINITION. The jump family (spec/42_jump.md). -/

namespace Sys2Proof.Machine

/-- JP nnn (R89, R90): `pc <- zext_16(nnn)`, exactly as encoded, with no `advance_pc` (R83). -/
def execJp (nnn : Addr12) (s : State) : Host.Outcome State Fault Refusal :=
  .next (s.setPc (jumpTarget nnn))

end Sys2Proof.Machine
end

