-- ==== Sys2Proof/Machine/RegisterAdd.lean ====
section
/-! DEFINITION. The register-add family, the ALU (spec/43_register_add.md). -/

namespace Sys2Proof.Machine

/-- ADD Vx, Vy (R93): both operands read first, `V[x]` gets the wrapped sum, VF the carry, written last (R94), then
`advance_pc`. -/
def execAdd (x y : RegIdx) (s : State) : Host.Outcome State Fault Refusal :=
  let (a, b) := s.regPair x y
  .next ((s.writeReg x (addResult a b)).writeFlag (addCarry a b)).advancePc

end Sys2Proof.Machine
end

