-- ==== Sys2Proof/Machine/SpriteDraw.lean ====
section
/-! DEFINITION. The sprite-draw family, the XOR blit engine (spec/44_sprite_draw.md). -/

namespace Sys2Proof.Machine

/-- What the engine carries from pixel to pixel: the framebuffer so far, and whether some pixel has gone from 1 to 0. -/
abbrev Blit := Framebuffer × Bool

/-- One selected pixel: XOR the cell, and note a collision when it was 1 (R98, R101, R102). -/
def xorCell (acc : Blit) (q : Pixel) : Blit := (acc.1.flip q, acc.2 || acc.1.lit q)

/-- Column offset `c` of row `r`: nothing where the sprite bit is 0 or the pixel is off the grid (R98, R103). -/
def drawPixel (p : Params) (cx cy row : Byte) (r c : Nat) (acc : Blit) : Blit :=
  if spriteBit row c then
    match place p cx cy r c with
    | some q => xorCell acc q
    | none => acc
  else acc

/-- One sprite row, columns left to right (R98, R107). -/
def drawRow (p : Params) (cx cy row : Byte) (r : Nat) (acc : Blit) : Blit :=
  (List.range 8).foldl (fun acc c => drawPixel p cx cy row r c acc) acc

/-- The whole sprite, rows in increasing order, none when `n = 0` (R98, R104, R107). -/
def drawSprite (p : Params) (cx cy : Byte) (rows : Nat → Byte) (n : Nat) (acc : Blit) : Blit :=
  (List.range n).foldl (fun acc r => drawRow p cx cy (rows r) r acc) acc

/-- DRW Vx, Vy, n (R98): coordinates and `I` read first (R106), the sprite composed, VF written with the collision flag, then
`advance_pc`. -/
def execDrw (x y : RegIdx) (n : Fin 16) (s : State) : Host.Outcome State Fault Refusal :=
  let (cx, cy) := s.regPair x y
  let drawn := drawSprite s.params cx cy s.spriteRow n.val (s.fb, false)
  .next ((s.setFb drawn.1).writeFlag drawn.2).advancePc

end Sys2Proof.Machine
end

