-- ==== Sys2Proof/Machine/Dispatch.lean ====
section
/-! DEFINITION. Dispatch (spec/40_fetch_decode_dispatch.md R79): the one rule the decoded value selects. -/

namespace Sys2Proof.Machine

/-- One instruction's whole effect, `pc` included, on a state whose `pc` addresses it (R24). -/
def exec (i : Instr) (s : State) : Host.Outcome State Fault Refusal :=
  match i with
  | .cls => Sys2Proof.Machine.execCls s
  | .jp nnn => Sys2Proof.Machine.execJp nnn s
  | .add x y => Sys2Proof.Machine.execAdd x y s
  | .drw x y n => Sys2Proof.Machine.execDrw x y n s

end Sys2Proof.Machine
end

