-- ==== Sys2Proof/Machine/Step.lean ====
section
/-! DEFINITION. One STEP of the core (spec/40_fetch_decode_dispatch.md R80). -/

namespace Sys2Proof.Machine

/-- STEP() of R80: refused before INITIALIZE (R35); no state change while `FAULT = 1` (R81); otherwise fetch (R77), decode
(R78) and dispatch (R79), an illegal word taking the exception (R130). Its status is `HostPort`'s `cmdStep`. -/
def step (s : State) : Host.Outcome State Fault Refusal :=
  if s.initialized then
    if s.latch.fault then .next s.stepFaulted
    else
      match decodeWord s.fetchWord with
      | .instr i => exec i s
      | .illegal w => .next (s.raiseIllegal s.pc w)
  else .refused .notInitialized

/-- `s` with the instruction of the opcode table's numbering stored where `step` fetches next, high byte first (R73). A core
that is not initialised, or whose latch is set, fetches nothing: those two are set as the fetch needs them
(notes/assumptions/8.md). -/
def State.withFetchWord (s : State) (nbits w : Nat) : State :=
  { s.memWriteAll s.pc.toNat (bytesOfWord (tableWord nbits w)) with
    initialized := true
    latch := if s.latch.fault then FaultLatch.clear else s.latch }

end Sys2Proof.Machine
end

