-- ==== Sys2Proof/Machine/Assembler.lean ====
section
/-! DEFINITION. The program image and the spec's assembly language (spec/30_encoding.md R71 to R75). The image is not core
state (R36): LOAD takes it as an argument. There are no pseudo-instructions (R75). -/

namespace Sys2Proof.Machine

/-- A program image: bytes in the order LOAD stores them (R73). -/
abbrev Image := List Byte

/-- The instruction a well-formed line stands for; none for `.byte` and for a line that R72 refuses. -/
def asmInstr : AsmLine → Option Instr
  | .cls => some .cls
  | .jp nnn => if nnn < 4096 then some (.jp (BitVec.ofNat 12 nnn)) else none
  | .add x y => if h : x < 16 ∧ y < 16 then some (.add ⟨x, h.1⟩ ⟨y, h.2⟩) else none
  | .drw x y n =>
    if h : x < 16 ∧ y < 16 ∧ n < 16 then some (.drw ⟨x, h.1⟩ ⟨y, h.2.1⟩ ⟨n, h.2.2⟩) else none
  | .rawByte _ => none

/-- The bytes of one line (R71, R73): two, high byte first, for an instruction, one for `.byte`; none where R72 refuses the
line (decision D26). -/
def assembleLine : AsmLine → Option Image
  | .rawByte b => if b < 256 then some [BitVec.ofNat 8 b] else none
  | .cls => (asmInstr .cls).map (fun i => bytesOfWord (encode i))
  | .jp nnn => (asmInstr (.jp nnn)).map (fun i => bytesOfWord (encode i))
  | .add x y => (asmInstr (.add x y)).map (fun i => bytesOfWord (encode i))
  | .drw x y n => (asmInstr (.drw x y n)).map (fun i => bytesOfWord (encode i))

/-- Appends one line's bytes to the image under construction (R74). -/
def emit (image : Image) (line : AsmLine) : Option Image := (assembleLine line).map (image ++ ·)

/-- The encoder's "emit a jump instruction to a given address" (R74). -/
def emitJump (image : Image) (nnn : Nat) : Option Image := emit image (.jp nnn)
/-- The encoder's "emit a sprite-draw instruction for given registers and row count" (R74). -/
def emitDraw (image : Image) (x y n : Nat) : Option Image := emit image (.drw x y n)
/-- The encoder's "emit a raw byte" (R74). -/
def emitByte (image : Image) (b : Nat) : Option Image := emit image (.rawByte b)
/-- The encoder's "return the current buffer and its length" (R74). -/
def finishImage (image : Image) : Image × Nat := (image, image.length)

/-- A whole listing, line after line; one refused line refuses it (R72). -/
def assembleAll : List AsmLine → Option Image
  | [] => some []
  | line :: rest =>
    match assembleLine line, assembleAll rest with
    | some a, some b => some (a ++ b)
    | _, _ => none

/-! ### The text of a line (R71)

One line is a mnemonic and its operands, separated by blanks and commas. DESIGN CHOICE (notes/assumptions/9.md): mnemonics in
capitals as the spec writes them, any number of blanks, hexadecimal digits of either case, one operand for `.byte`, and no
comments. -/

/-- A hexadecimal digit's value, either case. -/
def hexDigit (c : Char) : Option Nat :=
  let k := c.toNat
  if 48 ≤ k ∧ k ≤ 57 then some (k - 48)
  else if 65 ≤ k ∧ k ≤ 70 then some (k - 55)
  else if 97 ≤ k ∧ k ≤ 102 then some (k - 87)
  else none

/-- The digits of a number in the given base, after the digits already read. -/
def digitsFrom (base : Nat) : Nat → List Char → Option Nat
  | acc, [] => some acc
  | acc, c :: rest =>
    match hexDigit c with
    | some d => if d < base then digitsFrom base (acc * base + d) rest else none
    | none => none

/-- A number: decimal, or hexadecimal after `0x` (R11, R71). -/
def numberOf : List Char → Option Nat
  | [] => none
  | ['0', 'x'] => none
  | '0' :: 'x' :: digits => digitsFrom 16 0 digits
  | digits => digitsFrom 10 0 digits

/-- A register name, `V0` to `V9` and `VA` to `VF`, upper- or lower-case (R71). -/
def registerOf : List Char → Option Nat
  | [letter, digit] => if letter = 'V' ∨ letter = 'v' then hexDigit digit else none
  | _ => none

/-- A token that has ended, unless it is empty. -/
def closeToken (token : List Char) : List (List Char) := if token = [] then [] else [token]

/-- The tokens of a line: runs of characters other than blank and comma, and each comma, in order. -/
def tokensFrom : List Char → List Char → List (List Char)
  | token, [] => closeToken token
  | token, c :: rest =>
    if c = ' ' then closeToken token ++ tokensFrom [] rest
    else if c = ',' then closeToken token ++ [[',']] ++ tokensFrom [] rest
    else tokensFrom (token ++ [c]) rest

/-- The line a text stands for (R71); none for any other text.
DESIGN CHOICE (notes/assumptions/9.md): R71 gives `.byte b` with one operand and no comment form, while the spec's listing P4
(95_test_vectors.md) prints `.byte 0x6A, 0x05` and its listings P3 and P4 print trailing `--` comments. The model follows R71: it reads `.byte` with
one operand only and no comment, so such a printed line is refused (its bytes are written as two `.byte` lines). -/
def parseLine (text : List Char) : Option AsmLine :=
  match tokensFrom [] text with
  | [['C', 'L', 'S']] => some .cls
  | [['J', 'P'], a] => (numberOf a).map .jp
  | [['.', 'b', 'y', 't', 'e'], b] => (numberOf b).map .rawByte
  | [['A', 'D', 'D'], x, [','], y] =>
    match registerOf x, registerOf y with
    | some rx, some ry => some (.add rx ry)
    | _, _ => none
  | [['D', 'R', 'W'], x, [','], y, [','], n] =>
    match registerOf x, registerOf y, numberOf n with
    | some rx, some ry, some k => some (.drw rx ry k)
    | _, _, _ => none
  | _ => none

/-- The bytes of a line of text; none where it is no line of the language or R72 refuses it. -/
def assembleText (text : List Char) : Option Image := (parseLine text).bind assembleLine

end Sys2Proof.Machine
end

