-- ==== Sys2Proof/Machine/HostPort.lean ====
section
/-! DEFINITION. The host command port (spec/45_host_interface.md): each command one atomic transition of the core, or one
query of it (R8, R49). The host issues one command at a time (R109): a run is a list of commands. -/

namespace Sys2Proof.Machine

/-- The commands of R108, with their argument widths. No other command exists. -/
inductive Command where
  /-- INITIALIZE (R143). -/
  | init
  /-- LOAD of a byte sequence (R112 to R114). -/
  | load (bytes : List Byte)
  /-- STEP (R115). -/
  | step
  /-- REG_READ (R116, R118, R119). -/
  | regRead (r : Byte)
  /-- REG_WRITE (R117). -/
  | regWrite (r v : Byte)
  /-- PC_READ (R120). -/
  | pcRead
  /-- I_READ (R120). -/
  | iRead
  /-- SET_I (R121). -/
  | setI (v : Word)
  /-- MEM_READ (R122). -/
  | memRead (addr : Word)
  /-- MEM_WRITE (R123). -/
  | memWrite (addr : Word) (v : Byte)
  /-- FB_READ (R124, R125). -/
  | fbRead (px py : Byte)
  /-- FAULT_READ (R126). -/
  | faultRead
deriving DecidableEq, Repr

/-- The status values of R110. -/
inductive Status where
  | ok
  | faulted
  | invalidRegister
  | loadTooLarge
  | invalidCoordinate
deriving DecidableEq, Repr

/-- What a command returns to the host (R108, column "result"). -/
inductive Response where
  /-- A status alone: INITIALIZE, LOAD, STEP, REG_WRITE, SET_I, MEM_WRITE. -/
  | status (st : Status)
  /-- REG_READ: a status and an 8-bit value. -/
  | reg (st : Status) (value : Byte)
  /-- PC_READ and I_READ: a 16-bit value. -/
  | word (value : Word)
  /-- MEM_READ: one byte. -/
  | byte (value : Byte)
  /-- FB_READ: a status and one bit. -/
  | pixel (st : Status) (bit : Bool)
  /-- FAULT_READ: the latch. -/
  | latch (l : FaultLatch)
deriving DecidableEq, Repr

/-- The values the spec leaves free in an invalid read (R119, R125; decisions D12, D24): one draw for one command, handed in
from outside the core and bound by no law. It is no state: an invalid read changes none (R127; notes/assumptions/7.md). -/
structure FreeDraw where
  /-- The value REG_READ returns with INVALID_REGISTER: any 8-bit value. -/
  byte : Byte
  /-- The bit FB_READ returns with INVALID_COORDINATE: 0 or 1. -/
  bit : Bool
deriving DecidableEq, Repr

/-- Before the first INITIALIZE every other command is refused (R35, R111, decision D16). -/
def whenInitialized (s : State) (answer : State × Response) : Host.Outcome (State × Response) Fault Refusal :=
  if s.initialized then .next answer else .refused .notInitialized

/-- A host register index names a register only from 0 to 15; it is never clamped (R116). -/
def hostReg (r : Byte) : Option RegIdx := if h : r.toNat < 16 then some ⟨r.toNat, h⟩ else none

/-- INITIALIZE (R143, R146): at any time, always OK. -/
def cmdInit (s : State) : Host.Outcome (State × Response) Fault Refusal := .next (s.initCore, .status .ok)

/-- LOAD (R112 to R114): the whole image from the origin, or LOAD_TOO_LARGE and no byte at all. It neither needs nor clears
the fault latch (decision D25). -/
def cmdLoad (bytes : List Byte) (s : State) : Host.Outcome (State × Response) Fault Refusal :=
  whenInitialized s
    (if bytes.length > maxLoad s.params then (s, .status .loadTooLarge)
     else (s.memWriteAll (originAddr s.params) bytes, .status .ok))

/-- STEP's status (R86): FAULTED after an illegal word or when the latch was already set, else OK. -/
def stepStatus (after : State) : Status := if after.latch.fault then .faulted else .ok

/-- STEP (R115): the step algorithm once, with its status. -/
def cmdStep (s : State) : Host.Outcome (State × Response) Fault Refusal :=
  match Sys2Proof.Machine.step s with
  | .next t => .next (t, .status (stepStatus t))
  | .fault f => .fault f
  | .refused r => .refused r

/-- REG_READ (R116, R119). -/
def cmdRegRead (draw : FreeDraw) (r : Byte) (s : State) : Host.Outcome (State × Response) Fault Refusal :=
  whenInitialized s
    (match hostReg r with
     | some k => (s, .reg .ok (s.readReg k))
     | none => (s, .reg .invalidRegister draw.byte))

/-- REG_WRITE (R117): an invalid index writes nothing and says so. -/
def cmdRegWrite (r v : Byte) (s : State) : Host.Outcome (State × Response) Fault Refusal :=
  whenInitialized s
    (match hostReg r with
     | some k => (s.writeReg k v, .status .ok)
     | none => (s, .status .invalidRegister))

/-- PC_READ (R120): all 16 bits. -/
def cmdPcRead (s : State) : Host.Outcome (State × Response) Fault Refusal := whenInitialized s (s, .word s.pc)

/-- I_READ (R120): all 16 bits. -/
def cmdIRead (s : State) : Host.Outcome (State × Response) Fault Refusal := whenInitialized s (s, .word s.i)

/-- SET_I (R121). -/
def cmdSetI (v : Word) (s : State) : Host.Outcome (State × Response) Fault Refusal :=
  whenInitialized s (s.setIndex v, .status .ok)

/-- MEM_READ (R122): the address is reduced modulo `MEM_SIZE`. -/
def cmdMemRead (addr : Word) (s : State) : Host.Outcome (State × Response) Fault Refusal :=
  whenInitialized s (s, .byte (s.memRead addr.toNat))

/-- MEM_WRITE (R123): any address, reduced modulo `MEM_SIZE`. -/
def cmdMemWrite (addr : Word) (v : Byte) (s : State) : Host.Outcome (State × Response) Fault Refusal :=
  whenInitialized s (s.memWrite addr.toNat v, .status .ok)

/-- FB_READ (R125): the cell on the grid, a free bit off it. -/
def cmdFbRead (draw : FreeDraw) (px py : Byte) (s : State) : Host.Outcome (State × Response) Fault Refusal :=
  whenInitialized s
    (if px.toNat < s.params.fbWidth ∧ py.toNat < s.params.fbHeight then (s, .pixel .ok (s.fb.lit (px.toNat, py.toNat)))
     else (s, .pixel .invalidCoordinate draw.bit))

/-- FAULT_READ (R126). -/
def cmdFaultRead (s : State) : Host.Outcome (State × Response) Fault Refusal := whenInitialized s (s, .latch s.latch)

/-- One host command (R108), `draw` the free values an invalid read returns. -/
def runCommand (draw : FreeDraw) (c : Command) (s : State) : Host.Outcome (State × Response) Fault Refusal :=
  match c with
  | .init => cmdInit s
  | .load bytes => cmdLoad bytes s
  | .step => cmdStep s
  | .regRead r => cmdRegRead draw r s
  | .regWrite r v => cmdRegWrite r v s
  | .pcRead => cmdPcRead s
  | .iRead => cmdIRead s
  | .setI v => cmdSetI v s
  | .memRead addr => cmdMemRead addr s
  | .memWrite addr v => cmdMemWrite addr v s
  | .fbRead px py => cmdFbRead draw px py s
  | .faultRead => cmdFaultRead s

/-- A run (R152): the commands the host chose to issue, one after the other, each with its free values. -/
def runCommands : List (FreeDraw × Command) → State → Host.Outcome State Fault Refusal
  | [], s => .next s
  | (draw, c) :: rest, s =>
    match runCommand draw c s with
    | .next (t, _) => runCommands rest t
    | .fault f => .fault f
    | .refused r => .refused r

/-! ### The three host-side views of REG_READ (R118) -/

/-- The unchecked accessor: the value output alone. -/
def Response.uncheckedValue : Response → Option Byte
  | .reg _ value => some value
  | .status _ | .word _ | .byte _ | .pixel _ _ | .latch _ => none

/-- The checked accessor: the status and the value. -/
def Response.checkedValue : Response → Option (Status × Byte)
  | .reg st value => some (st, value)
  | .status _ | .word _ | .byte _ | .pixel _ _ | .latch _ => none

/-- The checked accessor with an output parameter: the host's output location after the read, left as it was unless the
status is OK. The location is host state (R36). -/
def Response.storeValue (target : Byte) : Response → Byte
  | .reg .ok value => value
  | .reg .faulted _ | .reg .invalidRegister _ | .reg .loadTooLarge _ | .reg .invalidCoordinate _ => target
  | .status _ | .word _ | .byte _ | .pixel _ _ | .latch _ => target

end Sys2Proof.Machine
end

