-- ==== Sys2Proof/Safety.lean ====
section
/-! DEFINITION. The terms statements use: the invariant of the core, a core that can run, and the closed form of what a sprite
selects. -/

namespace Sys2Proof.Machine

/-- The latch is clear, or it records ILLEGAL_INSTRUCTION with `FAULT_PC` = the present `pc` (nothing moves `pc` past the
illegal word, R136) and an illegal `FAULT_WORD` (R33, R130). -/
def State.LatchOk (s : State) : Prop :=
  s.latch = FaultLatch.clear ∨
    ∃ w, decodeWord w = .illegal w ∧
      s.latch = { fault := true, cause := .illegalInstruction, pc := s.pc, word := w }

/-- The invariant of the core: memory and framebuffer in their canonical form (every cell below `MEM_SIZE`, every pixel on the
grid, R31, R32), a grid with at least one cell, and a coherent latch. -/
structure State.Inv (s : State) : Prop where
  params : s.params.wf
  mem : s.mem.wf
  fb : s.fb.wf s.params
  latch : s.LatchOk

/-- A core that executes on STEP: initialised, no fault recorded (R80). -/
def State.Running (s : State) : Prop := s.initialized = true ∧ s.latch.fault = false

/-- The parts of the model's state that no instruction may write: the core's parameters and the initialised bit. -/
def State.SameCore (s t : State) : Prop := t.params = s.params ∧ t.initialized = s.initialized

/-- How many bits of an `n`-row sprite at (`cx`, `cy`) select the cell `q`, counted over all offsets (R98, R103). -/
def spriteHits (p : Params) (cx cy : Byte) (rows : Nat → Byte) (n : Nat) (q : Pixel) : Nat :=
  ((List.range n).map fun r =>
    (List.range 8).countP fun c => spriteBit (rows r) c && decide (place p cx cy r c = some q)).sum

/-- Every pixel of an 8-wide, `n`-row sprite at (`cx`, `cy`) lies on the grid without any edge policy. -/
def SpriteInside (p : Params) (cx cy : Byte) (n : Nat) : Prop :=
  cx.toNat + 8 ≤ p.fbWidth ∧ cy.toNat + n ≤ p.fbHeight

/-- The commands that only read (R127). -/
def Command.isRead : Command → Bool
  | .regRead _ | .pcRead | .iRead | .memRead _ | .fbRead _ _ | .faultRead => true
  | .init | .load _ | .step | .regWrite _ _ | .setI _ | .memWrite _ _ => false

end Sys2Proof.Machine
end

