-- ==== Sys2Proof/Certificates/Slice0/Obligations.lean ====
section
/-! DEFINITION. The statements for the provers, file by file of spec/. Every statement holds for every value of the core's
parameters (`State.params`): framebuffer size, edge policy and program origin. -/

open Sys2Proof Sys2Proof.Machine

/-! ### Reset (spec/10_state.md, spec/70_reset_and_hazards.md) -/

/-- R22, R28: from any state INITIALIZE answers OK with every register 0x00 and `pc` at the program origin, which is
200 = 0x00C8; the model's reset state has those values. -/
def Obligations.InitializeSetsRegistersAndPc : Prop :=
  (∀ (draw : FreeDraw) (s : State), ∃ t, runCommand draw .init s = .next (t, .status .ok) ∧
    (∀ r, t.readReg r = 0x00#8) ∧ t.pc.toNat = s.params.programOrigin.toNat ∧
    (s.params.programOrigin.toNat = 200 → t.pc = 0x00C8#16)) ∧
  (∀ r, State.reset.readReg r = 0x00#8) ∧ State.reset.pc = 0x00C8#16

/-- The rest of INITIALIZE: memory, framebuffer and `I` cleared, the core initialised, its parameters kept. Clearing the fault
latch is the spec's decision D5; that the parameters stand in the state is the model's choice (notes/assumptions/1.md). -/
def Obligations.InitializeClearsEverythingElse : Prop :=
  ∀ (draw : FreeDraw) (s : State), ∃ t, runCommand draw .init s = .next (t, .status .ok) ∧
    (∀ a, t.memRead a = 0x00#8) ∧ (∀ q, t.fb.lit q = false) ∧ t.i = 0x0000#16 ∧
    t.latch = { fault := false, cause := .none, pc := 0x0000#16, word := 0x0000#16 } ∧
    t.initialized = true ∧ t.params = s.params

/-! ### The instructions: result, completion and frame -/

/-- R88: CLS writes only `FB` and `pc`; every cell becomes 0 and `pc` advances by 2 (modulo 2^16). -/
def Obligations.ClsClearsFramebufferOnly : Prop :=
  ∀ s : State, ∃ t, exec .cls s = .next t ∧
    (∀ q, t.fb.lit q = false) ∧ t.pc = s.pc + 2#16 ∧
    (∀ r, t.readReg r = s.readReg r) ∧ t.i = s.i ∧ (∀ a, t.memRead a = s.memRead a) ∧
    t.latch = s.latch ∧ s.SameCore t

/-- R90: the jump target is written exactly as encoded, odd and boundary targets alike; JP writes only `pc`. -/
def Obligations.JpWritesTargetExactly : Prop :=
  ∀ (nnn : Addr12) (s : State), ∃ t, exec (.jp nnn) s = .next t ∧
    t.pc.toNat = nnn.toNat ∧
    (∀ r, t.readReg r = s.readReg r) ∧ t.i = s.i ∧ (∀ a, t.memRead a = s.memRead a) ∧
    (∀ q, t.fb.lit q = s.fb.lit q) ∧ t.latch = s.latch ∧ s.SameCore t

/-- R93, R97: ADD of the word `8xy4`: `V[x]` gets the sum of the old operands modulo 256, VF the carry (VF last, so the carry is
VF's value also for x = 15), `pc` advances by 2, nothing else changes. -/
def Obligations.AddWritesSumAndCarry : Prop :=
  ∀ (x y : RegIdx) (s : State),
    decodeWord (wordOfBytes (0x8#4 ++ BitVec.ofFin (w := 4) x) (BitVec.ofFin (w := 4) y ++ 0x4#4)) = .instr (.add x y) ∧
    ∃ t, exec (.add x y) s = .next t ∧
      (x ≠ 15 → (t.readReg x).toNat = ((s.readReg x).toNat + (s.readReg y).toNat) % 256) ∧
      t.readReg 15 = (if (s.readReg x).toNat + (s.readReg y).toNat > 255 then 0x01#8 else 0x00#8) ∧
      (∀ r, r ≠ x → r ≠ 15 → t.readReg r = s.readReg r) ∧
      t.pc = s.pc + 2#16 ∧ t.i = s.i ∧ (∀ a, t.memRead a = s.memRead a) ∧
      (∀ q, t.fb.lit q = s.fb.lit q) ∧ t.latch = s.latch ∧ s.SameCore t

/-- The arithmetic law of spec/43_register_add.md: for x other than 15 the result and the carry together are the exact sum. -/
def Obligations.AddResultAndCarryAreExactSum : Prop :=
  ∀ (x y : RegIdx) (s : State), x ≠ 15 → ∃ t, exec (.add x y) s = .next t ∧
    (t.readReg x).toNat + 256 * (t.readReg 15).toNat = (s.readReg x).toNat + (s.readReg y).toNat

/-- DRW completes on every state and operand and writes only `FB`, VF and `pc`; VF is 0 or 1; with n = 0 no pixel changes and
VF is 0 (the spec's decisions D8 and D9). -/
def Obligations.DrwCompletesAndKeepsTheRest : Prop :=
  ∀ (x y : RegIdx) (n : Fin 16) (s : State), ∃ t, exec (.drw x y n) s = .next t ∧
    (t.readReg 15 = 0x00#8 ∨ t.readReg 15 = 0x01#8) ∧
    (n = 0 → t.readReg 15 = 0x00#8 ∧ ∀ q, t.fb.lit q = s.fb.lit q) ∧
    (∀ r, r ≠ 15 → t.readReg r = s.readReg r) ∧
    t.pc = s.pc + 2#16 ∧ t.i = s.i ∧ (∀ a, t.memRead a = s.memRead a) ∧ t.latch = s.latch ∧ s.SameCore t

/-- The pixels DRW leaves, in closed form: each cell is inverted once for every set sprite bit that is placed on it, whatever
the grid and the edge policy (decisions D2, D3 and D9). The coordinates and `I` are those before the instruction. -/
def Obligations.DrwPixelsAreXorOfSelectedBits : Prop :=
  ∀ (x y : RegIdx) (n : Fin 16) (s : State), s.Inv → ∃ t, exec (.drw x y n) s = .next t ∧
    ∀ q, t.fb.lit q =
      (s.fb.lit q ^^ decide (spriteHits s.params (s.readReg x) (s.readReg y)
        (fun r => s.memRead (s.i.toNat + r)) n.val q % 2 = 1))

/-- The collision flag in closed form: VF is 1 exactly when some cell goes from 1 to 0 while the sprite is composed, that is,
when a cell that was 1 is selected, or a cell is selected twice (only possible on a grid smaller than 8 x 15; decision D9). -/
def Obligations.DrwCollisionFlag : Prop :=
  ∀ (x y : RegIdx) (n : Fin 16) (s : State), s.Inv → ∃ t, exec (.drw x y n) s = .next t ∧
    (t.readReg 15 = 0x01#8 ↔ ∃ q,
      let hits := spriteHits s.params (s.readReg x) (s.readReg y) (fun r => s.memRead (s.i.toNat + r)) n.val q
      (s.fb.lit q = true ∧ 1 ≤ hits) ∨ 2 ≤ hits)

/-- R100: on a sprite that lies inside the grid, bit 7 of row byte `r` is the leftmost pixel of its row and bit 0 the
rightmost, XORed onto the framebuffer; every cell outside the sprite's rectangle is unchanged. No edge policy matters here. -/
def Obligations.DrwInsideGridBitOrder : Prop :=
  ∀ (x y : RegIdx) (n : Fin 16) (s : State), s.Inv →
    SpriteInside s.params (s.readReg x) (s.readReg y) n.val →
    ∃ t, exec (.drw x y n) s = .next t ∧
      (∀ r c, r < n.val → c < 8 →
        t.fb.lit ((s.readReg x).toNat + c, (s.readReg y).toNat + r) =
          (s.fb.lit ((s.readReg x).toNat + c, (s.readReg y).toNat + r) ^^
            (s.memRead (s.i.toNat + r)).getLsbD (7 - c))) ∧
      (∀ q : Pixel, (∀ r c, r < n.val → c < 8 → q ≠ ((s.readReg x).toNat + c, (s.readReg y).toNat + r)) →
        t.fb.lit q = s.fb.lit q)

/-- R101: a sprite bit of 1 inverts its pixel and no other, a sprite bit of 0 leaves every pixel unchanged, and drawing the
same sprite twice at the same place restores every cell. -/
def Obligations.SpriteXorAndRedrawRestores : Prop :=
  (∀ (p : Params) (cx cy row : Byte) (r c : Nat) (acc : Blit), acc.1.wf p →
    (spriteBit row c = false → drawPixel p cx cy row r c acc = acc) ∧
    (∀ q, spriteBit row c = true → place p cx cy r c = some q →
      ∀ q', (drawPixel p cx cy row r c acc).1.lit q' = if q' = q then !acc.1.lit q else acc.1.lit q')) ∧
  (∀ (x y : RegIdx) (n : Fin 16) (s t : State), s.Inv → exec (.drw x y n) s = .next t →
    t.readReg x = s.readReg x → t.readReg y = s.readReg y →
    ∃ u, exec (.drw x y n) t = .next u ∧ ∀ q, u.fb.lit q = s.fb.lit q)

/-- The three edge policies as the spec's table gives them (decision D2), and that they agree on a pixel that no coordinate
carries past the grid. -/
def Obligations.PlaceFollowsEdgePolicy : Prop :=
  ∀ (p : Params) (cx cy : Byte) (r c : Nat),
    (p.edgePolicy = .wrap →
      place p cx cy r c = some ((cx.toNat + c) % p.fbWidth, (cy.toNat + r) % p.fbHeight)) ∧
    (p.edgePolicy = .clip → ¬ (cx.toNat + c < p.fbWidth ∧ cy.toNat + r < p.fbHeight) →
      place p cx cy r c = none) ∧
    (p.edgePolicy = .wrapOriginClip →
      place p cx cy r c =
        if cx.toNat % p.fbWidth + c < p.fbWidth ∧ cy.toNat % p.fbHeight + r < p.fbHeight
        then some (cx.toNat % p.fbWidth + c, cy.toNat % p.fbHeight + r) else none) ∧
    (cx.toNat + c < p.fbWidth ∧ cy.toNat + r < p.fbHeight →
      place p cx cy r c = some (cx.toNat + c, cy.toNat + r))

/-- No cell is selected twice by one sprite under a clipping policy, nor under `wrap` on a grid of at least 8 x 15 (decision
D9), so the order of the pixels changes nothing there. -/
def Obligations.SpriteHitsEachCellAtMostOnce : Prop :=
  ∀ (p : Params) (cx cy : Byte) (rows : Nat → Byte) (n : Fin 16) (q : Pixel),
    (p.edgePolicy = .wrap → 8 ≤ p.fbWidth ∧ 15 ≤ p.fbHeight) → spriteHits p cx cy rows n.val q ≤ 1

/-! ### Encoding (spec/30_encoding.md) -/

/-- Decode and encode agree on every instruction with every operand value; a program image decodes to the instruction and the
bytes after it. The CLS word and JP nibble are the spec's
general knowledge (decision D6), PRESUMED in notes/assumptions/3.md. -/
def Obligations.DecodeOfEncodeIsIdentity : Prop :=
  ∀ (i : Instr) (rest : List Byte), i.WellFormed = true →
    decodeWord (encode i) = .instr i ∧
    decodeBytes (bytesOfWord (encode i) ++ rest) = some (.instr i, rest)

/-- Each legal word has one meaning: what decodes to an instruction is that instruction's encoding. The CLS word and JP nibble are the spec's
general knowledge (decision D6), PRESUMED in notes/assumptions/3.md. -/
def Obligations.EncodeOfDecodeIsTheWord : Prop :=
  ∀ (w : Word) (i : Instr), decodeWord w = .instr i → encode i = w

/-- Words written out from the spec's encodings decode to the instructions they stand for. The CLS word and JP nibble are the spec's
general knowledge (decision D6), PRESUMED in notes/assumptions/3.md. -/
def Obligations.SampleWordsDecode : Prop :=
  decodeWord 0b0000000011100000#16 = .instr .cls ∧
  decodeWord 0b0001011110001001#16 = .instr (.jp 0x789#12) ∧
  decodeWord 0b1000000100100100#16 = .instr (.add 1 2) ∧
  decodeWord 0b1101000000010010#16 = .instr (.drw 0 1 2) ∧
  decodeWord 0b0000000011100001#16 = .illegal 0x00E1#16 ∧
  decodeWord 0b1000000100100101#16 = .illegal 0x8125#16

/-- The illegal words are exactly the ranges of the spec's table (decision D5 makes them illegal). The CLS word and JP nibble are the spec's
general knowledge (decision D6), PRESUMED in notes/assumptions/3.md. -/
def Obligations.IllegalWordsAreTheSpecRanges : Prop :=
  ∀ w : Word, decodeWord w = .illegal w ↔
    (w.toNat ≤ 0x0FFF ∧ w.toNat ≠ 0x00E0) ∨ (0x2000 ≤ w.toNat ∧ w.toNat ≤ 0x7FFF) ∨
    (0x8000 ≤ w.toNat ∧ w.toNat ≤ 0x8FFF ∧ w.toNat % 16 ≠ 4) ∨
    (0x9000 ≤ w.toNat ∧ w.toNat ≤ 0xCFFF) ∨ 0xE000 ≤ w.toNat

/-- The decoder and spec/opcode_table.json agree on every word: an instruction is decoded exactly from the words its row's
match and mask cover. The CLS word and JP nibble are the spec's
general knowledge (decision D6), PRESUMED in notes/assumptions/3.md. -/
def Obligations.DecoderMatchesOpcodeTable : Prop :=
  ∀ w : Word,
    (∀ i, decodeWord w = .instr i → opcodeRow i ∈ opcodeTable ∧ (opcodeRow i).Covers w) ∧
    (∀ row ∈ opcodeTable, row.Covers w → ∃ i, decodeWord w = .instr i ∧ opcodeRow i = row)

/-- The assembler refuses exactly the lines whose operands do not fit (decision D26), and an instruction line assembles to two
bytes that decode to it. The CLS word and JP nibble are the spec's
general knowledge (decision D6), PRESUMED in notes/assumptions/3.md. -/
def Obligations.AssemblerRefusesOrRoundTrips : Prop :=
  ∀ line : AsmLine,
    (assembleLine line = none ↔ line.WellFormed = false) ∧
    (∀ (i : Instr) (rest : List Byte), asmInstr line = some i →
      ∃ bytes, assembleLine line = some bytes ∧ bytes.length = 2 ∧
        decodeBytes (bytes ++ rest) = some (.instr i, rest))

/-! ### Fetch and STEP (spec/20_memory.md, spec/40_fetch_decode_dispatch.md) -/

/-- R42: the byte at `pc` is bits 15:8 of the fetched word, the byte at `pc + 1`, modulo 4096, is bits 7:0. -/
def Obligations.FetchIsBigEndian : Prop :=
  ∀ s : State,
    s.fetchWord.extractLsb' 8 8 = s.memRead s.pc.toNat ∧
    s.fetchWord.extractLsb' 0 8 = s.memRead ((s.pc.toNat + 1) % 4096)

/-- `pc` and `pc` modulo 4096 fetch the same word (decision D4). -/
def Obligations.FetchDependsOnPcModuloMemSize : Prop :=
  ∀ (s : State) (p : Word),
    (s.setPc p).fetchWord = (s.setPc (BitVec.ofNat 16 (p.toNat % 4096))).fetchWord

/-- R79: on a core that runs, STEP is the effect of the one instruction the word at `pc` decodes to, with nothing around it;
an illegal word takes the exception with `pc` and the word. -/
def Obligations.StepRunsTheDecodedInstruction : Prop :=
  ∀ s : State, s.Running →
    (∀ i, decodeWord (wordOfBytes (s.memRead s.pc.toNat) (s.memRead (s.pc.toNat + 1))) = .instr i →
      step s = exec i s) ∧
    (∀ w, decodeWord (wordOfBytes (s.memRead s.pc.toNat) (s.memRead (s.pc.toNat + 1))) = .illegal w →
      w = wordOfBytes (s.memRead s.pc.toNat) (s.memRead (s.pc.toNat + 1)) ∧
      step s = .next (s.raiseIllegal s.pc w))

/-- R83: a jump replaces `pc` and adds nothing, and the next STEP fetches at its target. -/
def Obligations.JumpStepFetchesAtTarget : Prop :=
  ∀ (s : State) (nnn : Addr12), s.Running → decodeWord s.fetchWord = .instr (.jp nnn) →
    ∃ t, step s = .next t ∧ t.pc.toNat = nnn.toNat ∧ t.Running ∧
      t.fetchWord = wordOfBytes (s.memRead nnn.toNat) (s.memRead (nnn.toNat + 1))

/-- An initialised core answers every STEP with a next state: nothing on this core stops it (spec/60_exceptions.md, no other
exception exists; the latched no-op is decision D5). -/
def Obligations.InitializedStepAlwaysAnswers : Prop :=
  ∀ s : State, s.initialized = true → ∃ t, step s = .next t

/-- No STEP writes memory, `I`, the parameters or the initialised bit, whatever it executes. -/
def Obligations.StepNeverWritesMemoryOrIndex : Prop :=
  ∀ s t : State, step s = .next t → (∀ a, t.memRead a = s.memRead a) ∧ t.i = s.i ∧ s.SameCore t

/-- A jump to itself is a fixed point: STEP leaves all state as it was. The JP nibble 0x1 in the word
0x1000 + `pc` is the spec's general knowledge (decision D6), PRESUMED in notes/assumptions/3.md. -/
def Obligations.SelfJumpIsFixedPoint : Prop :=
  ∀ s : State, s.Running → s.pc.toNat < 4096 →
    wordOfBytes (s.memRead s.pc.toNat) (s.memRead ((s.pc.toNat + 1) % 4096)) = 0x1000#16 + s.pc → step s = .next s

/-! ### The exception (spec/60_exceptions.md) -/

/-- IllegalInstruction is precise (decision D5): the latch records cause, `pc` and word, and `pc`, the registers, `I`, memory
and framebuffer stay as they were. -/
def Obligations.IllegalWordIsPrecise : Prop :=
  ∀ (s : State) (w : Word), s.Running → decodeWord s.fetchWord = .illegal w →
    ∃ t, step s = .next t ∧
      t.latch = { fault := true, cause := .illegalInstruction, pc := s.pc, word := s.fetchWord } ∧
      t.pc = s.pc ∧ (∀ r, t.readReg r = s.readReg r) ∧ t.i = s.i ∧
      (∀ a, t.memRead a = s.memRead a) ∧ (∀ q, t.fb.lit q = s.fb.lit q) ∧ s.SameCore t

/-- A faulted core stays as it is (decision D5): STEP changes no state and returns FAULTED. -/
def Obligations.FaultedStepChangesNothing : Prop :=
  ∀ (draw : FreeDraw) (s : State), s.initialized = true → s.latch.fault = true →
    step s = .next s ∧ runCommand draw .step s = .next (s, .status .faulted)

/-- R86: STEP returns OK after CLS, JP, ADD or DRW, FAULTED after an illegal word or when the latch was already set. -/
def Obligations.StepReturnsItsStatus : Prop :=
  ∀ (draw : FreeDraw) (s : State), s.initialized = true →
    ∃ t st, runCommand draw .step s = .next (t, .status st) ∧ step s = .next t ∧
      (st = .ok ↔ s.latch.fault = false ∧ ∃ i, decodeWord s.fetchWord = .instr i) ∧
      (st = .faulted ↔ s.latch.fault = true ∨ ∃ w, decodeWord s.fetchWord = .illegal w)

/-- R146: INITIALIZE can be issued on any state, a faulted one too; it is the only command that clears the fault latch, and the
only one but STEP that changes `pc`. -/
def Obligations.OnlyInitializeClearsLatchOrSetsPc : Prop :=
  (∀ (draw : FreeDraw) (s : State), ∃ t, runCommand draw .init s = .next (t, .status .ok) ∧
    t.latch.fault = false ∧ t.pc.toNat = s.params.programOrigin.toNat) ∧
  (∀ (draw : FreeDraw) (c : Command) (s t : State) (resp : Response),
    runCommand draw c s = .next (t, resp) → c ≠ .init →
      (s.latch.fault = true → t.latch = s.latch) ∧ (c ≠ .step → t.pc = s.pc))

/-- Before the first INITIALIZE every other command, STEP included, is refused by name (decision D16). -/
def Obligations.UninitializedRefusesEveryOtherCommand : Prop :=
  ∀ (draw : FreeDraw) (c : Command) (s : State), s.initialized = false →
    step s = .refused .notInitialized ∧ (c ≠ .init → runCommand draw c s = .refused .notInitialized)

/-! ### The host port (spec/45_host_interface.md) -/

/-- R127: every read command is pure, whatever its arguments and the free values of an invalid read. -/
def Obligations.ReadCommandsArePure : Prop :=
  ∀ (draw : FreeDraw) (c : Command) (s : State), c.isRead = true → s.initialized = true →
    ∃ resp, runCommand draw c s = .next (s, resp)

/-- Which command but INITIALIZE may write which state: only STEP writes `pc`, `FB` and the latch, only STEP and REG_WRITE the
registers, only SET_I the index, only LOAD and MEM_WRITE memory, and none the parameters. -/
def Obligations.EachStateHasOnlyItsWriters : Prop :=
  ∀ (draw : FreeDraw) (c : Command) (s t : State) (resp : Response),
    runCommand draw c s = .next (t, resp) → c ≠ .init →
      (c ≠ .step → t.pc = s.pc ∧ (∀ q, t.fb.lit q = s.fb.lit q) ∧ t.latch = s.latch) ∧
      (c ≠ .step → (∀ r v, c ≠ .regWrite r v) → ∀ r, t.readReg r = s.readReg r) ∧
      ((∀ v, c ≠ .setI v) → t.i = s.i) ∧
      ((∀ bytes, c ≠ .load bytes) → (∀ a v, c ≠ .memWrite a v) → ∀ a, t.memRead a = s.memRead a) ∧
      s.SameCore t

/-- REG_WRITE then REG_READ gives the value back for every valid index, VF included, and writes nothing else; an invalid index
writes nothing and reads a free value (decisions D11, D12, D15). -/
def Obligations.RegisterPortReadsBackWrites : Prop :=
  ∀ (draw : FreeDraw) (r v : Byte) (s : State), s.initialized = true →
    (∀ k : RegIdx, r.toNat = k.val → ∃ t,
      runCommand draw (.regWrite r v) s = .next (t, .status .ok) ∧
      runCommand draw (.regRead r) t = .next (t, .reg .ok v) ∧
      (∀ q, q ≠ k → t.readReg q = s.readReg q) ∧ t.pc = s.pc ∧ t.i = s.i ∧
      (∀ a, t.memRead a = s.memRead a) ∧ (∀ q, t.fb.lit q = s.fb.lit q) ∧ t.latch = s.latch) ∧
    (16 ≤ r.toNat →
      runCommand draw (.regWrite r v) s = .next (s, .status .invalidRegister) ∧
      runCommand draw (.regRead r) s = .next (s, .reg .invalidRegister draw.byte))

/-- R112: LOAD of at most MAX_LOAD bytes copies them to memory from the origin and changes no other byte and no other
state. -/
def Obligations.LoadCopiesTheImage : Prop :=
  ∀ (draw : FreeDraw) (bytes : List Byte) (s : State), s.Inv → s.initialized = true →
    bytes.length ≤ 4096 - s.params.programOrigin.toNat →
    ∃ t, runCommand draw (.load bytes) s = .next (t, .status .ok) ∧
      (∀ k (h : k < bytes.length), t.memRead (s.params.programOrigin.toNat + k) = bytes[k]) ∧
      (∀ a, a < 4096 → a < s.params.programOrigin.toNat ∨ s.params.programOrigin.toNat + bytes.length ≤ a →
        t.memRead a = s.memRead a) ∧
      (∀ r, t.readReg r = s.readReg r) ∧ t.pc = s.pc ∧ t.i = s.i ∧ (∀ q, t.fb.lit q = s.fb.lit q) ∧
      t.latch = s.latch

/-- An oversized LOAD changes no state, not even a first byte, and returns LOAD_TOO_LARGE (decision D10, conflict C5). -/
def Obligations.OversizedLoadWritesNothing : Prop :=
  ∀ (draw : FreeDraw) (bytes : List Byte) (s : State), s.initialized = true →
    4096 - s.params.programOrigin.toNat < bytes.length →
    runCommand draw (.load bytes) s = .next (s, .status .loadTooLarge)

/-- MEM_WRITE then MEM_READ: the written cell, under every address that reduces to it, gives the value; every other address
reads as before (decisions D3, D13, D14). -/
def Obligations.MemoryPortReadsBackWrites : Prop :=
  ∀ (draw : FreeDraw) (addr : Word) (v : Byte) (s : State), s.Inv → s.initialized = true →
    ∃ t, runCommand draw (.memWrite addr v) s = .next (t, .status .ok) ∧
      (∀ a : Word, runCommand draw (.memRead a) t =
        .next (t, .byte (if a.toNat % 4096 = addr.toNat % 4096 then v else s.memRead a.toNat))) ∧
      (∀ r, t.readReg r = s.readReg r) ∧ t.pc = s.pc ∧ t.i = s.i ∧ (∀ q, t.fb.lit q = s.fb.lit q) ∧
      t.latch = s.latch

/-- SET_I then I_READ gives all 16 bits back; PC_READ and FAULT_READ give `pc` and the latch (decisions D5, D13, D14). -/
def Obligations.IndexPcAndLatchPorts : Prop :=
  ∀ (draw : FreeDraw) (v : Word) (s : State), s.initialized = true →
    (∃ t, runCommand draw (.setI v) s = .next (t, .status .ok) ∧ runCommand draw .iRead t = .next (t, .word v)) ∧
    runCommand draw .pcRead s = .next (s, .word s.pc) ∧
    runCommand draw .faultRead s = .next (s, .latch s.latch)

/-- FB_READ gives the cell on the grid and INVALID_COORDINATE with a free bit off it (decision D24). -/
def Obligations.FramebufferPortReadsTheGrid : Prop :=
  ∀ (draw : FreeDraw) (px py : Byte) (s : State), s.initialized = true →
    (px.toNat < s.params.fbWidth ∧ py.toNat < s.params.fbHeight →
      runCommand draw (.fbRead px py) s = .next (s, .pixel .ok (s.fb.lit (px.toNat, py.toNat)))) ∧
    (s.params.fbWidth ≤ px.toNat ∨ s.params.fbHeight ≤ py.toNat →
      runCommand draw (.fbRead px py) s = .next (s, .pixel .invalidCoordinate draw.bit))

/-- The boot sequence: after INITIALIZE and LOAD of an image that begins with any instruction's two bytes, STEP executes that
instruction, with `pc` at the origin. That a program enters through LOAD is the spec's boot sequence. The CLS word and JP nibble are the spec's
general knowledge (decision D6), PRESUMED in notes/assumptions/3.md. -/
def Obligations.FirstLoadedInstructionRuns : Prop :=
  ∀ (d d' : FreeDraw) (s : State) (i : Instr) (rest : List Byte),
    rest.length + 2 ≤ 4096 - s.params.programOrigin.toNat →
    ∃ t, runCommands [(d, .init), (d', .load (bytesOfWord (encode i) ++ rest))] s = .next t ∧
      t.pc.toNat = s.params.programOrigin.toNat ∧ step t = exec i t

/-! ### Invariants -/

/-- The reset state meets the invariant. -/
def Obligations.ResetMeetsTheInvariant : Prop := State.reset.Inv

/-- Every STEP keeps the invariant, from every state that meets it: memory and framebuffer stay canonical with every pixel on
the grid, and a recorded fault stays coherent with `pc` (the latch is the spec's decision D5). -/
def Obligations.StepKeepsTheInvariant : Prop :=
  ∀ s t : State, s.Inv → step s = .next t → t.Inv

/-- Every host command keeps the invariant, from every state that meets it and for every argument (the latch is the spec's
decision D5). -/
def Obligations.CommandsKeepTheInvariant : Prop :=
  ∀ (draw : FreeDraw) (c : Command) (s t : State) (resp : Response),
    s.Inv → runCommand draw c s = .next (t, resp) → t.Inv
end

