-- ==== Sys2Proof/Laws/Decode.lean ====
section
/-! SUPPORT. Words as numbers: what each field of R59 is, what a word assembled from parts is, and the decoder as ranges. -/

namespace Sys2Proof

/-- Two bit vectors side by side as a number. -/
theorem append_toNat {m n : Nat} (a : BitVec m) (b : BitVec n) : (a ++ b).toNat = a.toNat * 2 ^ n + b.toNat := by
  rw [BitVec.toNat_append, ← Nat.shiftLeft_add_eq_or_of_lt b.isLt, Nat.shiftLeft_eq]

theorem fieldOp_toNat (w : Word) : (fieldOp w).toNat = w.toNat / 4096 := by
  have := w.isLt
  simp only [fieldOp, BitVec.extractLsb'_toNat, Nat.shiftRight_eq_div_pow]
  omega

theorem fieldX_toNat (w : Word) : (fieldX w).toNat = w.toNat / 256 % 16 := by
  simp [fieldX, BitVec.extractLsb'_toNat, Nat.shiftRight_eq_div_pow]

theorem fieldY_toNat (w : Word) : (fieldY w).toNat = w.toNat / 16 % 16 := by
  simp [fieldY, BitVec.extractLsb'_toNat, Nat.shiftRight_eq_div_pow]

theorem fieldN_toNat (w : Word) : (fieldN w).toNat = w.toNat % 16 := by
  simp [fieldN, BitVec.extractLsb'_toNat]

theorem fieldNnn_toNat (w : Word) : (fieldNnn w).toNat = w.toNat % 4096 := by
  simp [fieldNnn, BitVec.extractLsb'_toNat]

theorem wordOfBytes_toNat (hi lo : Byte) : (wordOfBytes hi lo).toNat = hi.toNat * 256 + lo.toNat :=
  append_toNat hi lo

theorem wordHi_toNat (w : Word) : (wordHi w).toNat = w.toNat / 256 := by
  have := w.isLt
  simp only [wordHi, BitVec.extractLsb'_toNat, Nat.shiftRight_eq_div_pow]
  omega

theorem wordLo_toNat (w : Word) : (wordLo w).toNat = w.toNat % 256 := by
  simp [wordLo, BitVec.extractLsb'_toNat]

/-- A word is its two bytes, high byte first (R42). -/
@[simp] theorem wordOfBytes_hi_lo (w : Word) : wordOfBytes (wordHi w) (wordLo w) = w := by
  apply BitVec.eq_of_toNat_eq
  rw [wordOfBytes_toNat, wordHi_toNat, wordLo_toNat]
  omega

@[simp] theorem nibble_toNat (k : Fin 16) : (nibble k).toNat = k.val := rfl

/-- The encoded words as numbers, from the patterns of R63. -/
theorem encode_cls_toNat : (encode .cls).toNat = 0x00E0 := rfl

theorem encode_jp_toNat (nnn : Addr12) : (encode (.jp nnn)).toNat = 0x1000 + nnn.toNat := by
  show (jpOp ++ nnn).toNat = _
  rw [append_toNat]
  simp [jpOp]

theorem encode_add_toNat (x y : RegIdx) : (encode (.add x y)).toNat = 0x8004 + x.val * 256 + y.val * 16 := by
  show (wordOfBytes (addOp ++ nibble x) (nibble y ++ addSel)).toNat = _
  rw [wordOfBytes_toNat, append_toNat, append_toNat]
  simp [addOp, addSel]
  omega

theorem encode_drw_toNat (x y : RegIdx) (n : Fin 16) :
    (encode (.drw x y n)).toNat = 0xD000 + x.val * 256 + y.val * 16 + n.val := by
  show (wordOfBytes (drwOp ++ nibble x) (nibble y ++ nibble n)).toNat = _
  rw [wordOfBytes_toNat, append_toNat, append_toNat]
  simp [drwOp]
  omega

theorem eq_clsWord_iff (w : Word) : w = clsWord ↔ w.toNat = 0x00E0 :=
  ⟨fun h => by rw [h]; rfl, fun h => BitVec.eq_of_toNat_eq (by rw [h]; rfl)⟩

theorem fieldOp_eq_iff (w : Word) (k : BitVec 4) : fieldOp w = k ↔ w.toNat / 4096 = k.toNat := by
  rw [← BitVec.toNat_inj, fieldOp_toNat]

theorem fieldN_eq_iff (w : Word) (k : BitVec 4) : fieldN w = k ↔ w.toNat % 16 = k.toNat := by
  rw [← BitVec.toNat_inj, fieldN_toNat]

/-- Everything `decodeWord` can answer, with the word as a number (R64, R78). -/
theorem decodeWord_cases (w : Word) :
    (w.toNat = 0x00E0 ∧ decodeWord w = .instr .cls) ∨
    (w.toNat / 4096 = 1 ∧ decodeWord w = .instr (.jp (fieldNnn w))) ∨
    (w.toNat / 4096 = 8 ∧ w.toNat % 16 = 4 ∧ decodeWord w = .instr (.add (fieldX w).toFin (fieldY w).toFin)) ∨
    (w.toNat / 4096 = 13 ∧ decodeWord w = .instr (.drw (fieldX w).toFin (fieldY w).toFin (fieldN w).toFin)) ∨
    (w.toNat ≠ 0x00E0 ∧ w.toNat / 4096 ≠ 1 ∧ ¬ (w.toNat / 4096 = 8 ∧ w.toNat % 16 = 4) ∧ w.toNat / 4096 ≠ 13 ∧
      decodeWord w = .illegal w) := by
  simp only [decodeWord, eq_clsWord_iff, fieldOp_eq_iff, fieldN_eq_iff, show jpOp.toNat = 1 from rfl,
    show addOp.toNat = 8 from rfl, show addSel.toNat = 4 from rfl, show drwOp.toNat = 13 from rfl]
  by_cases h1 : w.toNat = 0x00E0
  · simp [h1]
  by_cases h2 : w.toNat / 4096 = 1
  · simp [h1, h2]
  by_cases h3 : w.toNat / 4096 = 8 ∧ w.toNat % 16 = 4
  · simp [h1, h3]
  by_cases h4 : w.toNat / 4096 = 13
  · simp [h1, h4]
  · simp [h1, h2, h3, h4]

end Sys2Proof
end

