-- ==== Sys2Proof/Laws/State.lean ====
section
/-! SUPPORT. One lemma per field of State per update, so that no later proof unfolds a record update; and the register file's
read-after-write laws. -/

namespace Sys2Proof.Machine

/-! ### writeReg -/

@[simp] theorem State.writeReg_params (s : State) (r : RegIdx) (b : Byte) : (s.writeReg r b).params = s.params := rfl
@[simp] theorem State.writeReg_initialized (s : State) (r : RegIdx) (b : Byte) : (s.writeReg r b).initialized = s.initialized := rfl
@[simp] theorem State.writeReg_v (s : State) (r : RegIdx) (b : Byte) : (s.writeReg r b).v = s.v.set r b := rfl
@[simp] theorem State.writeReg_i (s : State) (r : RegIdx) (b : Byte) : (s.writeReg r b).i = s.i := rfl
@[simp] theorem State.writeReg_pc (s : State) (r : RegIdx) (b : Byte) : (s.writeReg r b).pc = s.pc := rfl
@[simp] theorem State.writeReg_mem (s : State) (r : RegIdx) (b : Byte) : (s.writeReg r b).mem = s.mem := rfl
@[simp] theorem State.writeReg_fb (s : State) (r : RegIdx) (b : Byte) : (s.writeReg r b).fb = s.fb := rfl
@[simp] theorem State.writeReg_latch (s : State) (r : RegIdx) (b : Byte) : (s.writeReg r b).latch = s.latch := rfl

/-! ### setIndex -/

@[simp] theorem State.setIndex_params (s : State) (w : Word) : (s.setIndex w).params = s.params := rfl
@[simp] theorem State.setIndex_initialized (s : State) (w : Word) : (s.setIndex w).initialized = s.initialized := rfl
@[simp] theorem State.setIndex_v (s : State) (w : Word) : (s.setIndex w).v = s.v := rfl
@[simp] theorem State.setIndex_i (s : State) (w : Word) : (s.setIndex w).i = w := rfl
@[simp] theorem State.setIndex_pc (s : State) (w : Word) : (s.setIndex w).pc = s.pc := rfl
@[simp] theorem State.setIndex_mem (s : State) (w : Word) : (s.setIndex w).mem = s.mem := rfl
@[simp] theorem State.setIndex_fb (s : State) (w : Word) : (s.setIndex w).fb = s.fb := rfl
@[simp] theorem State.setIndex_latch (s : State) (w : Word) : (s.setIndex w).latch = s.latch := rfl

/-! ### setPc -/

@[simp] theorem State.setPc_params (s : State) (w : Word) : (s.setPc w).params = s.params := rfl
@[simp] theorem State.setPc_initialized (s : State) (w : Word) : (s.setPc w).initialized = s.initialized := rfl
@[simp] theorem State.setPc_v (s : State) (w : Word) : (s.setPc w).v = s.v := rfl
@[simp] theorem State.setPc_i (s : State) (w : Word) : (s.setPc w).i = s.i := rfl
@[simp] theorem State.setPc_pc (s : State) (w : Word) : (s.setPc w).pc = w := rfl
@[simp] theorem State.setPc_mem (s : State) (w : Word) : (s.setPc w).mem = s.mem := rfl
@[simp] theorem State.setPc_fb (s : State) (w : Word) : (s.setPc w).fb = s.fb := rfl
@[simp] theorem State.setPc_latch (s : State) (w : Word) : (s.setPc w).latch = s.latch := rfl

/-! ### advancePc -/

@[simp] theorem State.advancePc_params (s : State) : (s.advancePc).params = s.params := rfl
@[simp] theorem State.advancePc_initialized (s : State) : (s.advancePc).initialized = s.initialized := rfl
@[simp] theorem State.advancePc_v (s : State) : (s.advancePc).v = s.v := rfl
@[simp] theorem State.advancePc_i (s : State) : (s.advancePc).i = s.i := rfl
@[simp] theorem State.advancePc_pc (s : State) : (s.advancePc).pc = s.pc + 2#16 := rfl
@[simp] theorem State.advancePc_mem (s : State) : (s.advancePc).mem = s.mem := rfl
@[simp] theorem State.advancePc_fb (s : State) : (s.advancePc).fb = s.fb := rfl
@[simp] theorem State.advancePc_latch (s : State) : (s.advancePc).latch = s.latch := rfl

/-! ### memWrite -/

@[simp] theorem State.memWrite_params (s : State) (a : Nat) (b : Byte) : (s.memWrite a b).params = s.params := rfl
@[simp] theorem State.memWrite_initialized (s : State) (a : Nat) (b : Byte) : (s.memWrite a b).initialized = s.initialized := rfl
@[simp] theorem State.memWrite_v (s : State) (a : Nat) (b : Byte) : (s.memWrite a b).v = s.v := rfl
@[simp] theorem State.memWrite_i (s : State) (a : Nat) (b : Byte) : (s.memWrite a b).i = s.i := rfl
@[simp] theorem State.memWrite_pc (s : State) (a : Nat) (b : Byte) : (s.memWrite a b).pc = s.pc := rfl
@[simp] theorem State.memWrite_mem (s : State) (a : Nat) (b : Byte) : (s.memWrite a b).mem = s.mem.writeCell (reduceAddr a) b := rfl
@[simp] theorem State.memWrite_fb (s : State) (a : Nat) (b : Byte) : (s.memWrite a b).fb = s.fb := rfl
@[simp] theorem State.memWrite_latch (s : State) (a : Nat) (b : Byte) : (s.memWrite a b).latch = s.latch := rfl

/-! ### setFb -/

@[simp] theorem State.setFb_params (s : State) (fb : Framebuffer) : (s.setFb fb).params = s.params := rfl
@[simp] theorem State.setFb_initialized (s : State) (fb : Framebuffer) : (s.setFb fb).initialized = s.initialized := rfl
@[simp] theorem State.setFb_v (s : State) (fb : Framebuffer) : (s.setFb fb).v = s.v := rfl
@[simp] theorem State.setFb_i (s : State) (fb : Framebuffer) : (s.setFb fb).i = s.i := rfl
@[simp] theorem State.setFb_pc (s : State) (fb : Framebuffer) : (s.setFb fb).pc = s.pc := rfl
@[simp] theorem State.setFb_mem (s : State) (fb : Framebuffer) : (s.setFb fb).mem = s.mem := rfl
@[simp] theorem State.setFb_fb (s : State) (fb : Framebuffer) : (s.setFb fb).fb = fb := rfl
@[simp] theorem State.setFb_latch (s : State) (fb : Framebuffer) : (s.setFb fb).latch = s.latch := rfl

/-! ### writeFlag -/

@[simp] theorem State.writeFlag_params (s : State) (f : Bool) : (s.writeFlag f).params = s.params := rfl
@[simp] theorem State.writeFlag_initialized (s : State) (f : Bool) : (s.writeFlag f).initialized = s.initialized := rfl
@[simp] theorem State.writeFlag_v (s : State) (f : Bool) : (s.writeFlag f).v = s.v.set flagReg (flagByte f) := rfl
@[simp] theorem State.writeFlag_i (s : State) (f : Bool) : (s.writeFlag f).i = s.i := rfl
@[simp] theorem State.writeFlag_pc (s : State) (f : Bool) : (s.writeFlag f).pc = s.pc := rfl
@[simp] theorem State.writeFlag_mem (s : State) (f : Bool) : (s.writeFlag f).mem = s.mem := rfl
@[simp] theorem State.writeFlag_fb (s : State) (f : Bool) : (s.writeFlag f).fb = s.fb := rfl
@[simp] theorem State.writeFlag_latch (s : State) (f : Bool) : (s.writeFlag f).latch = s.latch := rfl

/-! ### raiseIllegal -/

@[simp] theorem State.raiseIllegal_params (s : State) (p w : Word) : (s.raiseIllegal p w).params = s.params := rfl
@[simp] theorem State.raiseIllegal_initialized (s : State) (p w : Word) : (s.raiseIllegal p w).initialized = s.initialized := rfl
@[simp] theorem State.raiseIllegal_v (s : State) (p w : Word) : (s.raiseIllegal p w).v = s.v := rfl
@[simp] theorem State.raiseIllegal_i (s : State) (p w : Word) : (s.raiseIllegal p w).i = s.i := rfl
@[simp] theorem State.raiseIllegal_pc (s : State) (p w : Word) : (s.raiseIllegal p w).pc = s.pc := rfl
@[simp] theorem State.raiseIllegal_mem (s : State) (p w : Word) : (s.raiseIllegal p w).mem = s.mem := rfl
@[simp] theorem State.raiseIllegal_fb (s : State) (p w : Word) : (s.raiseIllegal p w).fb = s.fb := rfl
@[simp] theorem State.raiseIllegal_latch (s : State) (p w : Word) : (s.raiseIllegal p w).latch = { fault := true, cause := .illegalInstruction, pc := p, word := w } := rfl

/-! ### initCore -/

@[simp] theorem State.initCore_params (s : State) : (s.initCore).params = s.params := rfl
@[simp] theorem State.initCore_initialized (s : State) : (s.initCore).initialized = true := rfl
@[simp] theorem State.initCore_v (s : State) : (s.initCore).v = Vector.replicate 16 0x00#8 := rfl
@[simp] theorem State.initCore_i (s : State) : (s.initCore).i = 0x0000#16 := rfl
@[simp] theorem State.initCore_pc (s : State) : (s.initCore).pc = originPc s.params := rfl
@[simp] theorem State.initCore_mem (s : State) : (s.initCore).mem = [] := rfl
@[simp] theorem State.initCore_fb (s : State) : (s.initCore).fb = Framebuffer.blank := rfl
@[simp] theorem State.initCore_latch (s : State) : (s.initCore).latch = FaultLatch.clear := rfl

/-! ### stepFaulted and reading -/

@[simp] theorem State.stepFaulted_eq (s : State) : s.stepFaulted = s := rfl

@[simp] theorem State.regPair_eq (s : State) (x y : RegIdx) : s.regPair x y = (s.readReg x, s.readReg y) := rfl

/-- JP's target is its operand (R60). -/
@[simp] theorem jumpTarget_toNat (nnn : Addr12) : (jumpTarget nnn).toNat = nnn.toNat := by
  have := nnn.isLt
  simp only [jumpTarget, BitVec.toNat_setWidth]
  omega

/-- The reset value of `pc` is the program origin (R28). -/
@[simp] theorem originPc_toNat (p : Params) : (originPc p).toNat = p.programOrigin.toNat := by
  have := p.programOrigin.isLt
  simp only [originPc, BitVec.toNat_setWidth]
  omega

/-- A read depends on the register file alone. -/
theorem State.readReg_congr (s t : State) (h : t.v = s.v) (r : RegIdx) : t.readReg r = s.readReg r := by
  simp only [State.readReg, h]

/-- A memory read depends on the memory alone. -/
theorem State.memRead_congr (s t : State) (h : t.mem = s.mem) (a : Nat) : t.memRead a = s.memRead a := by
  simp only [State.memRead, h]

/-- `V[r]` just written reads back, and no other register changes (R18: no register is hardwired). -/
theorem State.readReg_writeReg (s : State) (r q : RegIdx) (b : Byte) :
    (s.writeReg r b).readReg q = if q = r then b else s.readReg q := by
  unfold State.readReg State.writeReg
  by_cases h : q = r
  · subst h; simp
  · have h' : r.val ≠ q.val := fun e => h (Fin.ext e.symm)
    simp [h, h']

@[simp] theorem State.readReg_writeReg_same (s : State) (r : RegIdx) (b : Byte) : (s.writeReg r b).readReg r = b := by
  simp [State.readReg_writeReg]

@[simp] theorem State.readReg_writeFlag (s : State) (q : RegIdx) (f : Bool) :
    (s.writeFlag f).readReg q = if q = flagReg then flagByte f else s.readReg q :=
  s.readReg_writeReg flagReg q (flagByte f)

/-- Reads through updates that do not touch the register file. -/
@[simp] theorem State.readReg_setPc (s : State) (w : Word) (r : RegIdx) : (s.setPc w).readReg r = s.readReg r := rfl
@[simp] theorem State.readReg_advancePc (s : State) (r : RegIdx) : s.advancePc.readReg r = s.readReg r := rfl
@[simp] theorem State.readReg_setFb (s : State) (fb : Framebuffer) (r : RegIdx) : (s.setFb fb).readReg r = s.readReg r := rfl
@[simp] theorem State.readReg_setIndex (s : State) (w : Word) (r : RegIdx) : (s.setIndex w).readReg r = s.readReg r := rfl
@[simp] theorem State.readReg_memWrite (s : State) (a : Nat) (b : Byte) (r : RegIdx) :
    (s.memWrite a b).readReg r = s.readReg r := rfl
@[simp] theorem State.readReg_raiseIllegal (s : State) (p w : Word) (r : RegIdx) :
    (s.raiseIllegal p w).readReg r = s.readReg r := rfl

/-- Reads of memory through updates that do not touch it. -/
@[simp] theorem State.memRead_setPc (s : State) (w : Word) (a : Nat) : (s.setPc w).memRead a = s.memRead a := rfl
@[simp] theorem State.memRead_advancePc (s : State) (a : Nat) : s.advancePc.memRead a = s.memRead a := rfl
@[simp] theorem State.memRead_setFb (s : State) (fb : Framebuffer) (a : Nat) : (s.setFb fb).memRead a = s.memRead a := rfl
@[simp] theorem State.memRead_setIndex (s : State) (w : Word) (a : Nat) : (s.setIndex w).memRead a = s.memRead a := rfl
@[simp] theorem State.memRead_writeReg (s : State) (r : RegIdx) (b : Byte) (a : Nat) :
    (s.writeReg r b).memRead a = s.memRead a := rfl
@[simp] theorem State.memRead_writeFlag (s : State) (f : Bool) (a : Nat) : (s.writeFlag f).memRead a = s.memRead a := rfl
@[simp] theorem State.memRead_raiseIllegal (s : State) (p w : Word) (a : Nat) :
    (s.raiseIllegal p w).memRead a = s.memRead a := rfl

end Sys2Proof.Machine
end

