-- ==== Sys2Proof/Laws/Framebuffer.lean ====
section
/-! SUPPORT. Framebuffer: the XOR of one cell, the canonical form it keeps, and what the blit engine can do. -/

namespace Sys2Proof.Machine

theorem Pixel.before_trans {a b c : Pixel} (h : Pixel.Before a b) (h' : Pixel.Before b c) : Pixel.Before a c := by
  unfold Pixel.Before at *; omega

theorem Pixel.before_irrefl (a : Pixel) : ¬ Pixel.Before a a := by
  unfold Pixel.Before; omega

theorem Pixel.before_total {a b : Pixel} (h : a ≠ b) (h' : ¬ Pixel.Before a b) : Pixel.Before b a := by
  have : ¬ (a.1 = b.1 ∧ a.2 = b.2) := fun e => h (Prod.ext e.1 e.2)
  unfold Pixel.Before at *; omega

@[simp] theorem Framebuffer.lit_blank (q : Pixel) : Framebuffer.lit Framebuffer.blank q = false := rfl

theorem Framebuffer.lit_eq_true (fb : Framebuffer) (q : Pixel) : fb.lit q = true ↔ q ∈ fb := by
  simp [Framebuffer.lit]

theorem Framebuffer.lit_cons (p : Pixel) (fb : Framebuffer) (q : Pixel) :
    Framebuffer.lit (p :: fb) q = (decide (q = p) || fb.lit q) := by
  simp only [Framebuffer.lit, List.contains_cons]
  congr 1
  exact Bool.eq_iff_iff.mpr (by simp)

theorem Framebuffer.lit_of_before {fb : Framebuffer} {q : Pixel} (h : ∀ p ∈ fb, Pixel.Before q p) : fb.lit q = false := by
  by_contra hq
  exact Pixel.before_irrefl q (h q ((Framebuffer.lit_eq_true fb q).mp (by simpa using hq)))

/-- A pixel of the flipped framebuffer is the flipped cell or an old pixel. -/
theorem Framebuffer.mem_flip {fb : Framebuffer} {q p : Pixel} (h : p ∈ fb.flip q) : p = q ∨ p ∈ fb := by
  induction fb with
  | nil => exact .inl (by simpa [Framebuffer.flip] using h)
  | cons r rest ih =>
    simp only [Framebuffer.flip] at h
    split at h
    · exact .inr (by simp [h])
    · split at h
      · rcases List.mem_cons.mp h with h | h
        · exact .inl h
        · exact .inr h
      · rcases List.mem_cons.mp h with h | h
        · exact .inr (by simp [h])
        · rcases ih h with h | h
          · exact .inl h
          · exact .inr (by simp [h])

theorem Framebuffer.sorted_flip {fb : Framebuffer} (hs : fb.Pairwise Pixel.Before) (q : Pixel) :
    (fb.flip q).Pairwise Pixel.Before := by
  induction fb with
  | nil => simp [Framebuffer.flip]
  | cons r rest ih =>
    obtain ⟨hlt, hrest⟩ := List.pairwise_cons.mp hs
    simp only [Framebuffer.flip]
    split
    · exact hrest
    · split
      · rename_i hqr
        refine List.pairwise_cons.mpr ⟨fun p hp => ?_, hs⟩
        rcases List.mem_cons.mp hp with rfl | hp
        · exact hqr
        · exact Pixel.before_trans hqr (hlt p hp)
      · rename_i hne hqr
        refine List.pairwise_cons.mpr ⟨fun p hp => ?_, ih hrest⟩
        rcases Framebuffer.mem_flip hp with rfl | hp
        · exact Pixel.before_total (fun e => hne e.symm) hqr
        · exact hlt p hp

/-- XOR of one cell (R101): that cell is inverted, no other changes. -/
theorem Framebuffer.lit_flip {fb : Framebuffer} (hs : fb.Pairwise Pixel.Before) (q p : Pixel) :
    (fb.flip q).lit p = if p = q then !fb.lit q else fb.lit p := by
  induction fb with
  | nil =>
    simp only [Framebuffer.flip, Framebuffer.lit_cons]
    by_cases h : p = q <;> simp [h, Framebuffer.lit]
  | cons r rest ih =>
    obtain ⟨hlt, hrest⟩ := List.pairwise_cons.mp hs
    simp only [Framebuffer.flip]
    split
    · rename_i hrq
      subst hrq
      have hr : Framebuffer.lit rest r = false := Framebuffer.lit_of_before hlt
      by_cases h : p = r <;> simp [Framebuffer.lit_cons, h, hr]
    · rename_i hne
      split
      · rename_i hqr
        have hq : Framebuffer.lit (r :: rest) q = false := by
          refine Framebuffer.lit_of_before fun p hp => ?_
          rcases List.mem_cons.mp hp with rfl | hp
          · exact hqr
          · exact Pixel.before_trans hqr (hlt p hp)
        rw [Framebuffer.lit_cons q, hq]
        by_cases h : p = q <;> simp [h, hq]
      · rw [Framebuffer.lit_cons r, Framebuffer.lit_cons r, Framebuffer.lit_cons r, ih hrest]
        by_cases h : p = q
        · subst h
          simp [show ¬ p = r from fun e => hne e.symm]
        · simp [h]

theorem Framebuffer.wf_flip {p : Params} {fb : Framebuffer} (hfb : fb.wf p) {q : Pixel} (hq : q.1 < p.fbWidth ∧ q.2 < p.fbHeight) :
    (fb.flip q).wf p := by
  refine ⟨Framebuffer.sorted_flip hfb.1 q, fun r hr => ?_⟩
  rcases Framebuffer.mem_flip hr with rfl | hr
  · exact hq
  · exact hfb.2 r hr

/-- Canonical framebuffers that read alike are equal data. -/
theorem Framebuffer.ext_lit {a b : Framebuffer} (ha : a.Pairwise Pixel.Before) (hb : b.Pairwise Pixel.Before)
    (h : ∀ q, a.lit q = b.lit q) : a = b := by
  have hmem : ∀ q, q ∈ a ↔ q ∈ b := fun q => by
    rw [← Framebuffer.lit_eq_true, ← Framebuffer.lit_eq_true, h]
  have hperm : a.Perm b := by
    refine (List.perm_ext_iff_of_nodup ?_ ?_).mpr hmem
    · exact ha.imp fun {x y} h (e : x = y) => Pixel.before_irrefl x (by rw [← e] at h; exact h)
    · exact hb.imp fun {x y} h (e : x = y) => Pixel.before_irrefl x (by rw [← e] at h; exact h)
  refine hperm.eq_of_pairwise (fun x y _ _ h1 h2 => ?_) ha hb
  exact absurd (Pixel.before_trans h1 h2) (Pixel.before_irrefl x)

/-- A pixel that `place` keeps lies on the grid, under every edge policy (R103). -/
theorem onGrid_some {p : Params} {u v : Nat} {q : Pixel} (h : onGrid p u v = some q) :
    q.1 < p.fbWidth ∧ q.2 < p.fbHeight := by
  unfold onGrid at h
  split at h
  · cases h; assumption
  · cases h

theorem place_on_grid {p : Params} (hp : p.wf) {cx cy : Byte} {r c : Nat} {q : Pixel} (h : place p cx cy r c = some q) :
    q.1 < p.fbWidth ∧ q.2 < p.fbHeight := by
  unfold place at h
  split at h
  · cases h; exact ⟨Nat.mod_lt _ hp.1, Nat.mod_lt _ hp.2⟩
  · exact onGrid_some h
  · exact onGrid_some h

/-- What one pixel position can do: nothing, or the XOR of the selected cell. -/
theorem drawPixel_cases (p : Params) (cx cy row : Byte) (r c : Nat) (acc : Blit) :
    (drawPixel p cx cy row r c acc = acc ∧ (spriteBit row c = false ∨ place p cx cy r c = none)) ∨
    ∃ q, spriteBit row c = true ∧ place p cx cy r c = some q ∧ drawPixel p cx cy row r c acc = xorCell acc q := by
  unfold drawPixel
  by_cases h : spriteBit row c = true
  · rw [if_pos h]
    cases hq : place p cx cy r c with
    | none => exact .inl ⟨rfl, .inr rfl⟩
    | some q => exact .inr ⟨q, h, rfl, rfl⟩
  · rw [if_neg h]
    exact .inl ⟨rfl, .inl (by simpa using h)⟩

/-- A property that every step of a fold keeps holds after it. -/
theorem foldl_keeps {α β : Type} (P : β → Prop) (f : β → α → β) (l : List α) (b : β) (hb : P b)
    (h : ∀ b a, a ∈ l → P b → P (f b a)) : P (l.foldl f b) := by
  induction l generalizing b with
  | nil => exact hb
  | cons a rest ih =>
    exact ih (f b a) (h b a (by simp) hb) fun b a ha => h b a (by simp [ha])

/-- The blit engine reaches the framebuffer only through the XOR of placed cells: whatever those keep, a whole sprite keeps. -/
theorem drawSprite_keeps (P : Blit → Prop) (p : Params) (cx cy : Byte) (rows : Nat → Byte) (n : Nat) (acc : Blit)
    (h0 : P acc) (h : ∀ acc r c q, place p cx cy r c = some q → P acc → P (xorCell acc q)) :
    P (drawSprite p cx cy rows n acc) := by
  refine foldl_keeps P _ _ _ h0 fun acc r _ hacc => ?_
  refine foldl_keeps P _ _ _ hacc fun acc c _ hacc => ?_
  rcases drawPixel_cases p cx cy (rows r) r c acc with ⟨e, -⟩ | ⟨q, -, hq, e⟩
  · rw [e]; exact hacc
  · rw [e]; exact h acc r c q hq hacc

theorem drawSprite_wf {p : Params} (hp : p.wf) (cx cy : Byte) (rows : Nat → Byte) (n : Nat) (acc : Blit)
    (h : acc.1.wf p) : (drawSprite p cx cy rows n acc).1.wf p :=
  drawSprite_keeps (fun a => a.1.wf p) p cx cy rows n acc h fun _ _ _ _ hq hacc =>
    Framebuffer.wf_flip hacc (place_on_grid hp hq)

/-- A sprite of no rows draws nothing (R104). -/
@[simp] theorem drawSprite_zero (p : Params) (cx cy : Byte) (rows : Nat → Byte) (acc : Blit) :
    drawSprite p cx cy rows 0 acc = acc := rfl

/-- One row more is drawn after the rows before it (R107). -/
theorem drawSprite_succ (p : Params) (cx cy : Byte) (rows : Nat → Byte) (n : Nat) (acc : Blit) :
    drawSprite p cx cy rows (n + 1) acc = drawRow p cx cy (rows n) n (drawSprite p cx cy rows n acc) := by
  simp [drawSprite, List.range_succ]

/-- The blit engine reads the memory only for the rows it draws. -/
theorem drawSprite_congr (p : Params) (cx cy : Byte) (rows rows' : Nat → Byte) (n : Nat) (acc : Blit)
    (h : ∀ r < n, rows r = rows' r) : drawSprite p cx cy rows n acc = drawSprite p cx cy rows' n acc := by
  induction n with
  | zero => rfl
  | succ n ih =>
    rw [drawSprite_succ, drawSprite_succ, ih fun r hr => h r (by omega), h n (by omega)]

end Sys2Proof.Machine
end

