-- ==== Sys2Proof/Laws/Memory.lean ====
section
/-! SUPPORT. Memory: read after write, the canonical form every operation keeps, and equal memories are equal data. -/

namespace Sys2Proof.Machine

/-- An address below every listed one is unlisted. -/
theorem Memory.readCell_of_below (m : Memory) (a : Nat) (h : ∀ c ∈ m, a < c.1) : m.readCell a = Memory.unlisted := by
  induction m with
  | nil => rfl
  | cons c rest ih =>
    have hc : a < c.1 := h c (by simp)
    have : ¬ c.1 = a := by omega
    obtain ⟨k, b⟩ := c
    simp only [Memory.readCell, if_neg this]
    exact ih fun d hd => h d (by simp [hd])

theorem Memory.wf_tail {c : Host.Cell} {rest : Memory} (h : Memory.wf (c :: rest)) : Memory.wf rest :=
  ⟨(List.pairwise_cons.mp h.1).2, fun d hd => h.2 d (by simp [hd])⟩

theorem Memory.wf_head_lt {c : Host.Cell} {rest : Memory} (h : Memory.wf (c :: rest)) : ∀ d ∈ rest, c.1 < d.1 :=
  (List.pairwise_cons.mp h.1).1

/-- Every key of the written memory is the written one or an old one. -/
theorem Memory.mem_writeCell {m : Memory} {a : Nat} {b : Byte} {c : Host.Cell} (h : c ∈ m.writeCell a b) :
    c ∈ m ∨ (c = (a, b) ∧ b ≠ Memory.unlisted) := by
  induction m with
  | nil =>
    simp only [Memory.writeCell] at h
    split at h
    · cases h
    · exact .inr ⟨by simpa using h, ‹_›⟩
  | cons d rest ih =>
    obtain ⟨k, e⟩ := d
    simp only [Memory.writeCell] at h
    split at h
    · split at h
      · exact .inl h
      · rcases List.mem_cons.mp h with h | h
        · exact .inr ⟨h, ‹_›⟩
        · exact .inl h
    · split at h
      · split at h
        · exact .inl (by simp [h])
        · rcases List.mem_cons.mp h with h | h
          · exact .inr ⟨h, ‹_›⟩
          · exact .inl (by simp [h])
      · rcases List.mem_cons.mp h with h | h
        · exact .inl (by simp [h])
        · rcases ih h with h | h
          · exact .inl (by simp [h])
          · exact .inr h

/-- Read after write: the written cell has the value written, every other cell the value it had. -/
theorem Memory.readCell_writeCell (m : Memory) (hm : m.wf) (a : Nat) (b : Byte) (a' : Nat) :
    (m.writeCell a b).readCell a' = if a' = a then b else m.readCell a' := by
  induction m with
  | nil =>
    by_cases hb : b = Memory.unlisted <;> by_cases ha : a' = a <;>
      simp [Memory.writeCell, Memory.readCell, hb, ha, eq_comm]
    · exact fun h => absurd h.symm (by simpa [eq_comm] using ha)
  | cons d rest ih =>
    obtain ⟨k, e⟩ := d
    have hlt := Memory.wf_head_lt hm
    simp only [Memory.writeCell]
    split
    · rename_i hak
      have below : a' = a → Memory.readCell ((k, e) :: rest) a' = Memory.unlisted := by
        rintro rfl
        refine Memory.readCell_of_below _ _ fun c hc => ?_
        rcases List.mem_cons.mp hc with rfl | hc
        · exact hak
        · exact lt_trans hak (hlt c hc)
      split
      · rename_i hb
        by_cases ha : a' = a
        · simp [ha, hb, ← below ha]
        · simp [ha]
      · by_cases ha : a' = a
        · simp [Memory.readCell, ha]
        · have : ¬ a = a' := fun h => ha h.symm
          simp [Memory.readCell, ha, this]
    · split
      · rename_i _ hak
        subst hak
        have tail : a' = a → Memory.readCell rest a' = Memory.unlisted := by
          rintro rfl
          exact Memory.readCell_of_below _ _ hlt
        split
        · rename_i hb
          by_cases ha : a' = a
          · rw [if_pos ha, tail ha, hb]
          · have : ¬ a = a' := fun h => ha h.symm
            simp [Memory.readCell, ha, this]
        · by_cases ha : a' = a
          · simp [Memory.readCell, ha]
          · have : ¬ a = a' := fun h => ha h.symm
            simp [Memory.readCell, ha, this]
      · rename_i h1 h2
        by_cases hk : k = a'
        · have : ¬ a' = a := by omega
          simp [Memory.readCell, hk, this]
        · simp only [Memory.readCell, if_neg hk, ih (Memory.wf_tail hm)]

/-- A write below `MEM_SIZE` keeps the canonical form. -/
theorem Memory.wf_writeCell (m : Memory) (hm : m.wf) (a : Nat) (ha : a < memSize) (b : Byte) : (m.writeCell a b).wf := by
  constructor
  · have hs := hm.1
    clear hm ha
    induction m with
    | nil => simp only [Memory.writeCell]; split <;> simp
    | cons d rest ih =>
      obtain ⟨k, e⟩ := d
      obtain ⟨hlt, hrest⟩ := List.pairwise_cons.mp hs
      simp only [Memory.writeCell]
      split
      · split
        · exact hs
        · refine List.pairwise_cons.mpr ⟨fun c hc => ?_, hs⟩
          rcases List.mem_cons.mp hc with rfl | hc
          · assumption
          · exact lt_trans ‹_› (hlt c hc)
      · split
        · split
          · exact hrest
          · exact List.pairwise_cons.mpr ⟨fun c hc => by subst_vars; exact hlt c hc, hrest⟩
        · refine List.pairwise_cons.mpr ⟨fun c hc => ?_, ih hrest⟩
          rcases Memory.mem_writeCell hc with hc | ⟨rfl, -⟩
          · exact hlt c hc
          · show k < a
            omega
  · intro c hc
    rcases Memory.mem_writeCell hc with hc | ⟨rfl, hb⟩
    · exact hm.2 c hc
    · exact ⟨ha, hb⟩

/-- In a canonical memory an unlisted cell is exactly one that reads as `Memory.unlisted`, so memories that read alike are
equal data. -/
theorem Memory.ext_read (m m' : Memory) (hm : m.wf) (hm' : m'.wf) (h : ∀ a, m.readCell a = m'.readCell a) : m = m' := by
  induction m generalizing m' with
  | nil =>
    cases m' with
    | nil => rfl
    | cons d rest =>
      have := h d.1
      obtain ⟨k, e⟩ := d
      simp only [Memory.readCell, if_true] at this
      exact absurd this.symm (hm'.2 (k, e) (by simp)).2
  | cons c rest ih =>
    obtain ⟨k, b⟩ := c
    cases m' with
    | nil =>
      have := h k
      simp only [Memory.readCell, if_true] at this
      exact absurd this (hm.2 (k, b) (by simp)).2
    | cons d rest' =>
      obtain ⟨k', b'⟩ := d
      have hb := (hm.2 (k, b) (by simp)).2
      have hb' := (hm'.2 (k', b') (by simp)).2
      have hk : k = k' := by
        rcases Nat.lt_trichotomy k k' with lt | eq | gt
        · have := h k
          rw [Memory.readCell_of_below ((k', b') :: rest') k] at this
          · exact absurd (by simpa [Memory.readCell] using this) hb
          · intro c hc
            rcases List.mem_cons.mp hc with rfl | hc
            · exact lt
            · exact lt_trans lt (Memory.wf_head_lt hm' c hc)
        · exact eq
        · have := h k'
          rw [Memory.readCell_of_below ((k, b) :: rest) k'] at this
          · exact absurd (by simpa [Memory.readCell] using this.symm) hb'
          · intro c hc
            rcases List.mem_cons.mp hc with rfl | hc
            · exact gt
            · exact lt_trans gt (Memory.wf_head_lt hm c hc)
      subst hk
      have hbb : b = b' := by simpa [Memory.readCell] using h k
      subst hbb
      congr 1
      refine ih rest' (Memory.wf_tail hm) (Memory.wf_tail hm') fun a => ?_
      by_cases ha : k = a
      · subst ha
        rw [Memory.readCell_of_below rest k (Memory.wf_head_lt hm), Memory.readCell_of_below rest' k (Memory.wf_head_lt hm')]
      · simpa [Memory.readCell, ha] using h a

theorem reduceAddr_lt (a : Nat) : reduceAddr a < memSize := Nat.mod_lt a (by decide)

@[simp] theorem reduceAddr_reduceAddr (a : Nat) : reduceAddr (reduceAddr a) = reduceAddr a := Nat.mod_mod a memSize

/-- MemRead after MemWrite, through the address reduction of R46. -/
theorem State.memRead_memWrite (s : State) (hm : s.mem.wf) (a : Nat) (b : Byte) (a' : Nat) :
    (s.memWrite a b).memRead a' = if reduceAddr a' = reduceAddr a then b else s.memRead a' :=
  Memory.readCell_writeCell s.mem hm (reduceAddr a) b (reduceAddr a')

theorem State.memWrite_wf (s : State) (hm : s.mem.wf) (a : Nat) (b : Byte) : (s.memWrite a b).mem.wf :=
  Memory.wf_writeCell s.mem hm _ (reduceAddr_lt a) b

theorem State.memWriteAll_wf (s : State) (hm : s.mem.wf) (a : Nat) (bs : List Byte) : (s.memWriteAll a bs).mem.wf := by
  induction bs generalizing s a with
  | nil => exact hm
  | cons b rest ih => exact ih (s.memWrite a b) (s.memWrite_wf hm a b) (a + 1)

/-- LOAD's loop writes memory and nothing else. -/
theorem State.memWriteAll_frame (s : State) (a : Nat) (bs : List Byte) :
    s.memWriteAll a bs = { s with mem := (s.memWriteAll a bs).mem } := by
  induction bs generalizing s a with
  | nil => rfl
  | cons b rest ih => exact ih (s.memWrite a b) (a + 1)

/-- Reset memory lists nothing and is canonical. -/
theorem reset_mem_wf : Memory.wf State.reset.mem := by decide

end Sys2Proof.Machine
end

