-- ==== Sys2Proof/Laws/PerInstr.lean ====
section
/-! SUPPORT. Per-instruction laws about instructions as syntax. Family FixedBits: the encoded word shows the fixed bits that
spec/opcode_table.json gives its row. -/

namespace Sys2Proof.Laws

/-- The operand types carry the bounds of R61 and R62, so every term is well-formed. -/
theorem instr_wellFormed (i : Instr) : i.WellFormed = true := by
  cases i with
  | cls => rfl
  | jp nnn => have := nnn.isLt; simp only [Instr.WellFormed, decide_eq_true_eq]; omega
  | add x y => have := x.isLt; have := y.isLt; simp only [Instr.WellFormed, Bool.and_eq_true, decide_eq_true_eq]; omega
  | drw x y n =>
    have := x.isLt; have := y.isLt; have := n.isLt
    simp only [Instr.WellFormed, Bool.and_eq_true, decide_eq_true_eq]; omega

namespace FixedBits

/-- The word of `i` is a word of its row: its bits under the row's mask are the row's pattern. -/
def Statement (i : Instr) : Prop := (opcodeRow i).Covers (encode i)

theorem cls : Statement .cls := by
  unfold Statement OpcodeRow.Covers; decide

theorem jp (nnn : Addr12) : Statement (.jp nnn) := by
  show (jpOp ++ nnn) &&& 0xF000#16 = 0x1000#16
  ext k hk
  simp only [BitVec.getElem_and, BitVec.getElem_append]
  interval_cases k <;> simp [jpOp]

theorem add (x y : RegIdx) : Statement (.add x y) := by
  unfold Statement OpcodeRow.Covers
  revert x y
  decide

theorem drw (x y : RegIdx) (n : Fin 16) : Statement (.drw x y n) := by
  show wordOfBytes (drwOp ++ nibble x) (nibble y ++ nibble n) &&& 0xF000#16 = 0xD000#16
  unfold wordOfBytes drwOp
  generalize nibble y ++ nibble n = low
  generalize nibble x = mid
  revert mid low
  decide

end FixedBits

end Sys2Proof.Laws
end

