-- ==== Sys2Proof/Laws/Step.lean ====
section
/-! SUPPORT. What `exec`, `step` and a host command can answer, said once each; later proofs cite these and do not unfold. -/

namespace Sys2Proof.Machine

/-! ### One equation per instruction -/

theorem execCls_eq (s : State) : exec .cls s = .next (s.setFb Framebuffer.blank).advancePc := rfl

theorem execJp_eq (nnn : Addr12) (s : State) : exec (.jp nnn) s = .next (s.setPc (jumpTarget nnn)) := rfl

theorem execAdd_eq (x y : RegIdx) (s : State) :
    exec (.add x y) s =
      .next ((s.writeReg x (addResult (s.readReg x) (s.readReg y))).writeFlag
        (addCarry (s.readReg x) (s.readReg y))).advancePc := rfl

/-- The sprite DRW composes on a state. -/
def State.drawn (s : State) (x y : RegIdx) (n : Fin 16) : Blit :=
  drawSprite s.params (s.readReg x) (s.readReg y) s.spriteRow n.val (s.fb, false)

theorem execDrw_eq (x y : RegIdx) (n : Fin 16) (s : State) :
    exec (.drw x y n) s = .next ((s.setFb (s.drawn x y n).1).writeFlag (s.drawn x y n).2).advancePc := rfl

/-- Everything an instruction can do: it answers a next state, and only the register file, `pc` and framebuffer may differ. -/
theorem exec_next (i : Instr) (s : State) :
    ∃ v pc fb, exec i s = .next { s with v := v, pc := pc, fb := fb } := by
  cases i with
  | cls => exact ⟨_, _, _, execCls_eq s⟩
  | jp nnn => exact ⟨_, _, _, execJp_eq nnn s⟩
  | add x y => exact ⟨_, _, _, execAdd_eq x y s⟩
  | drw x y n => exact ⟨_, _, _, execDrw_eq x y n s⟩

/-! ### STEP -/

theorem step_running {s : State} (h : s.Running) :
    step s = match decodeWord s.fetchWord with
      | .instr i => exec i s
      | .illegal w => .next (s.raiseIllegal s.pc w) :=
  (if_pos h.1).trans (if_neg (by simp [h.2]))

theorem step_latched {s : State} (hi : s.initialized = true) (hf : s.latch.fault = true) : step s = .next s := by
  simp [step, hi, hf]

theorem step_uninitialized {s : State} (hi : s.initialized = false) : step s = .refused .notInitialized := by
  simp [step, hi]

/-- An illegal word decodes to itself, by name. -/
theorem decodeWord_illegal {w w' : Word} (h : decodeWord w = .illegal w') : w' = w := by
  unfold decodeWord at h
  repeat' split at h
  all_goals first | cases h; rfl | cases h

/-- Everything a STEP can answer. -/
theorem step_cases {s t : State} (h : step s = .next t) :
    s.initialized = true ∧
    ((s.latch.fault = true ∧ t = s) ∨
     (s.latch.fault = false ∧ ∃ i, decodeWord s.fetchWord = .instr i ∧ exec i s = .next t) ∨
     (s.latch.fault = false ∧ decodeWord s.fetchWord = .illegal s.fetchWord ∧
       t = s.raiseIllegal s.pc s.fetchWord)) := by
  by_cases hi : s.initialized = true
  · refine ⟨hi, ?_⟩
    by_cases hf : s.latch.fault = true
    · rw [step_latched hi hf] at h
      cases h
      exact .inl ⟨hf, rfl⟩
    · have hf : s.latch.fault = false := by simpa using hf
      rw [step_running ⟨hi, hf⟩] at h
      cases hd : decodeWord s.fetchWord with
      | instr i => rw [hd] at h; exact .inr (.inl ⟨hf, i, rfl, h⟩)
      | illegal w =>
        rw [hd] at h
        have := decodeWord_illegal hd
        subst this
        cases h
        exact .inr (.inr ⟨hf, rfl, rfl⟩)
  · rw [step_uninitialized (by simpa using hi)] at h
    cases h

/-- The memory `withFetchWord` leaves is canonical. -/
theorem withFetchWord_mem_wf (s : State) (hm : s.mem.wf) (nbits w : Nat) : (s.withFetchWord nbits w).mem.wf :=
  s.memWriteAll_wf hm _ _

/-! ### Host commands -/

theorem whenInitialized_of {s : State} (h : s.initialized = true) (a : State × Response) :
    whenInitialized s a = .next a := by
  simp [whenInitialized, h]

theorem whenInitialized_next {s : State} {a b : State × Response} (h : whenInitialized s a = .next b) :
    s.initialized = true ∧ a = b := by
  unfold whenInitialized at h
  split at h
  · cases h; exact ⟨‹_›, rfl⟩
  · cases h

/-- A register index the host gives is valid exactly from 0 to 15 (R116). -/
theorem hostReg_some {r : Byte} {k : RegIdx} (h : hostReg r = some k) : k.val = r.toNat := by
  unfold hostReg at h
  split at h
  · cases h; rfl
  · cases h

theorem cmdStep_next {s t : State} {resp : Response} (h : cmdStep s = .next (t, resp)) :
    step s = .next t ∧ resp = .status (stepStatus t) := by
  unfold cmdStep at h
  split at h
  · rename_i u hu
    cases h
    exact ⟨hu, rfl⟩
  · cases h
  · cases h

end Sys2Proof.Machine
end

