-- ==== Sys2Proof/Tests/Slice0.lean ====
section
/-! SUPPORT. The model's own tests. Expected results come from spec/95_test_vectors.md (the vector's id stands in the test's
name or comment) or are worked out by hand from the rule named; and one witness per hypothesis of every statement. -/

namespace Sys2Proof.Tests

open Sys2Proof Sys2Proof.Machine

/-! ### WellFormed: an ill-formed term for each check, which the check refuses (R72) -/

theorem test_wellFormed_refuses_jp_address : (AsmLine.jp 0x1000).WellFormed = false := by decide
theorem test_wellFormed_refuses_add_registers :
    (AsmLine.add 16 0).WellFormed = false ∧ (AsmLine.add 0 16).WellFormed = false := by decide
theorem test_wellFormed_refuses_drw_operands :
    (AsmLine.drw 16 0 0).WellFormed = false ∧ (AsmLine.drw 0 16 0).WellFormed = false ∧
    (AsmLine.drw 0 0 16).WellFormed = false := by decide
theorem test_wellFormed_refuses_raw_byte : (AsmLine.rawByte 256).WellFormed = false := by decide
theorem test_wellFormed_accepts_boundaries :
    (AsmLine.jp 0xFFF).WellFormed = true ∧ (AsmLine.drw 15 15 15).WellFormed = true ∧
    (AsmLine.rawByte 255).WellFormed = true ∧ AsmLine.cls.WellFormed = true ∧
    (Instr.drw 15 15 15).WellFormed = true := by decide

/-! ### Decode: words written out from the spec's encodings (R63; vectors of section 2.1) -/

theorem test_decode_cls : decodeWord 0b0000000011100000#16 = .instr .cls := by decide
theorem test_decode_jp : decodeWord 0b0001111111111111#16 = .instr (.jp 0xFFF#12) := by decide
theorem test_decode_add : decodeWord 0b1000000100100100#16 = .instr (.add 1 2) := by decide
theorem test_decode_drw : decodeWord 0b1101000100101111#16 = .instr (.drw 1 2 15) := by decide
theorem test_decode_illegal :
    [0x00E1#16, 0x00EE#16, 0x0000#16, 0x2200#16, 0x6A05#16, 0x8120#16, 0x8125#16, 0x812E#16, 0xA123#16, 0xF000#16].all
      (fun w => decodeWord w = .illegal w) = true := by decide
theorem test_decodeTableWord : decodeTableWord 16 0xD125 = some (.drw 1 2 5) ∧ decodeTableWord 16 0x00E1 = none := by decide
theorem test_decodeBytes_needs_two : decodeBytes [0x12#8] = none ∧
    decodeBytes [0x12#8, 0x34#8, 0x56#8] = some (.instr (.jp 0x234#12), [0x56#8]) := by decide

/-! ### Small states and single steps -/

/-- The reset state with one instruction word at `pc`. -/
def placed (w : Nat) : State := State.reset.withFetchWord 16 w

/-- The state after one STEP, or the same state where none answers. -/
def stepped (s : State) : State :=
  match step s with
  | .next t => t
  | .fault _ | .refused _ => s

/-- K1: CLS on a lit framebuffer; VF stays. -/
theorem test_cls_K1 :
    let t := stepped (((placed 0x00E0).setFb [(3, 3)]).writeReg 15 7)
    t.fb = [] ∧ t.readReg 15 = 7 ∧ t.pc = 0x00CA := by decide

/-- J3 and J4: the odd targets 0xFFF and 0x0C9. -/
theorem test_jp_J3_J4 : (stepped (placed 0x1FFF)).pc = 0x0FFF ∧ (stepped (placed 0x10C9)).pc = 0x00C9 := by decide

/-- A4 and A5: the largest sum, and a sum of exactly 255 that clears VF. -/
theorem test_add_A4_A5 :
    let t := stepped (((placed 0x8124).writeReg 1 0xFF).writeReg 2 0xFF)
    let u := stepped ((((placed 0x8124).writeReg 1 0xFE).writeReg 2 0x01).writeReg 15 1)
    t.readReg 1 = 0xFE ∧ t.readReg 15 = 1 ∧ t.pc = 0x00CA ∧ u.readReg 1 = 0xFF ∧ u.readReg 15 = 0 := by decide

/-- A9 and A11: VF as destination (the flag wins) and as addend (its old value). -/
theorem test_add_A9_A11 :
    let t := stepped (((placed 0x8F24).writeReg 15 0xF0).writeReg 2 0x20)
    let u := stepped (((placed 0x81F4).writeReg 1 0x10).writeReg 15 0xFF)
    t.readReg 15 = 0x01 ∧ u.readReg 1 = 0x0F ∧ u.readReg 15 = 1 := by decide

/-- The two-row sprite FF 81 at 0x300, drawn at (60, 31) under a policy. -/
def cornerSprite (policy : EdgePolicy) : State :=
  let s := ((placed 0xD012).memWrite 0x300 0xFF).memWrite 0x301 0x81
  { ((s.setIndex 0x300).writeReg 0 60).writeReg 1 31 with params := { Params.spec with edgePolicy := policy } }

/-- D1, D2, D3: the three edge policies. -/
theorem test_drw_D1_D2_D3 :
    (stepped (cornerSprite .wrap)).fb =
      [(3, 0), (60, 0), (0, 31), (1, 31), (2, 31), (3, 31), (60, 31), (61, 31), (62, 31), (63, 31)] ∧
    (stepped (cornerSprite .clip)).fb = [(60, 31), (61, 31), (62, 31), (63, 31)] ∧
    (stepped (cornerSprite .wrapOriginClip)).fb = [(60, 31), (61, 31), (62, 31), (63, 31)] ∧
    (stepped (cornerSprite .wrap)).readReg 15 = 0 := by decide

/-- D8 and D11: a partial collision; the column read from VF's old value before VF is written. -/
theorem test_drw_D8_D11 :
    let s := (((placed 0xD011).memWrite 0x300 0xC0).setIndex 0x300).setFb [(1, 0)]
    let u := (((placed 0xDF11).memWrite 0x300 0x80).setIndex 0x300).writeReg 15 3
    (stepped s).fb = [(0, 0)] ∧ (stepped s).readReg 15 = 1 ∧ (stepped s).pc = 0x00CA ∧
    (stepped u).fb = [(3, 0)] ∧ (stepped u).readReg 15 = 0 := by decide

/-- F3: `pc` 0xFFFF fetches M[0xFFF], M[0x000] and advances to 0x0001. -/
theorem test_fetch_F3 :
    (stepped (((State.reset.memWrite 0xFFF 0x00).memWrite 0x000 0xE0).setPc 0xFFFF)).pc = 0x0001 := by decide

/-- E1: the STEP right after INITIALIZE. -/
theorem test_exception_E1 :
    let t := stepped State.reset
    t.latch = { fault := true, cause := .illegalInstruction, pc := 0x00C8, word := 0x0000 } ∧ t.pc = 0x00C8 := by decide

/-! ### Host port and assembler -/

/-- The answer of a command, where it has one. -/
def answer (draw : FreeDraw) (c : Command) (s : State) : Option (State × Response) :=
  match runCommand draw c s with
  | .next a => some a
  | .fault _ | .refused _ => none

/-- Some draw of the free values, for tests that do not read it. -/
def anyDraw : FreeDraw := { byte := 0xA5, bit := true }

/-- H7: the written cell read through an address above 0xFFF. -/
theorem test_host_H7 :
    (answer anyDraw (.memRead 0x1005) (State.reset.memWrite 0x0005 0x42)).map Prod.snd = some (.byte 0x42) := by decide

/-- E5: LOAD on a faulted core is OK, and STEP still returns FAULTED. -/
theorem test_host_E5 :
    let t := stepped (placed 0x6A05)
    let u := t.memWriteAll 0xC8 [0x00, 0xE0]
    answer anyDraw (.load [0x00, 0xE0]) t = some (u, .status .ok) ∧
    answer anyDraw .step u = some (u, .status .faulted) := by decide

/-- R118: the three views of an invalid read; the output location stays as it was. -/
theorem test_register_views :
    (Response.reg .invalidRegister 9).uncheckedValue = some 9 ∧
    (Response.reg .ok 9).checkedValue = some (.ok, 9) ∧
    (Response.reg .ok 9).storeValue 1 = 9 ∧ (Response.reg .invalidRegister 9).storeValue 1 = 1 := by decide

/-- Lines of the spec's programs P1 and P2 as text, and texts the assembler refuses. -/
theorem test_assembleText :
    assembleText "ADD V3, VF".toList = some [0x83, 0xF4] ∧ assembleText "JP 0x0CE".toList = some [0x10, 0xCE] ∧
    assembleText "DRW V0, v1, 2".toList = some [0xD0, 0x12] ∧ assembleText ".byte 0x7E".toList = some [0x7E] ∧
    assembleText "CLS".toList = some [0x00, 0xE0] ∧ assembleText "JP 4096".toList = none ∧
    assembleText "ADD V1, VG".toList = none ∧ assembleText "RET".toList = none := by decide

/-- R74: the encoder's three emits and its buffer. -/
theorem test_encoder :
    (((emitJump [] 0x2CE).bind (emitDraw · 0 1 2)).bind (emitByte · 0x55)).map finishImage =
      some ([0x12, 0xCE, 0xD0, 0x12, 0x55], 5) ∧ emitJump [] 0x1000 = none := by decide

/-! ### Witnesses: a state and operands that meet the hypotheses of each statement -/

/-- A running core off reset: a lit framebuffer, a sprite byte, and `pc` and `I` at the last address. -/
def sample : State :=
  { State.reset with
    pc := 0xFFF#16, i := 0xFFF#16, mem := [(0x000, 0xFF#8), (0xFFF, 0x1F#8)], fb := [(5, 0), (63, 31)]
    params := { Params.spec with edgePolicy := .clip } }

/-- A core with a recorded fault. -/
def faulted : State := stepped (placed 0x6A05)

/-- A core before its first INITIALIZE, its registers arbitrary. -/
def unstarted : State := { State.reset with initialized := false, v := Vector.replicate 16 0x5A#8 }

theorem sample_inv : sample.Inv := ⟨by decide, by decide, by decide, .inl rfl⟩

theorem faulted_inv : faulted.Inv :=
  ⟨by decide, by decide, by decide, .inr ⟨0x6A05#16, by decide, by decide⟩⟩

theorem witness_InitializeSetsRegistersAndPc : State.reset.params.programOrigin.toNat = 200 := by decide
theorem witness_AddResultAndCarryAreExactSum : (14 : RegIdx) ≠ 15 := by decide
theorem witness_AddWritesSumAndCarry : (14 : RegIdx) ≠ 15 ∧ (0 : RegIdx) ≠ 14 ∧ (0 : RegIdx) ≠ 15 := by decide
theorem witness_DrwCompletesAndKeepsTheRest : ∃ n : Fin 16, n = 0 := ⟨0, rfl⟩
theorem witness_DrwPixelsAreXorOfSelectedBits : sample.Inv := sample_inv
theorem witness_DrwCollisionFlag : sample.Inv := sample_inv

/-- The sprite's rectangle ends at the last column and the last row. -/
theorem witness_DrwInsideGridBitOrder :
    let s := (sample.writeReg 0 56).writeReg 1 17
    s.Inv ∧ SpriteInside s.params (s.readReg 0) (s.readReg 1) 15 ∧ 14 < 15 ∧ 7 < 8 ∧
    (∀ r c, r < 15 → c < 8 → ((5, 0) : Pixel) ≠ ((s.readReg 0).toNat + c, (s.readReg 1).toNat + r)) := by
  refine ⟨⟨by decide, by decide, by decide, .inl rfl⟩, by unfold SpriteInside; decide, by decide, by decide, ?_⟩
  intro r c _ _ h
  have h2 : 0 = 17 + r := congrArg Prod.snd h
  omega

/-- Both clauses: a pixel at the last column with its bit 1 and with its bit 0; and a redraw with VF as a coordinate whose
value the first draw leaves. -/
theorem witness_SpriteXorAndRedrawRestores :
    Framebuffer.wf Params.spec [(63, 31)] ∧ spriteBit 0x80 0 = true ∧ spriteBit 0x7F 0 = false ∧
    place Params.spec 63 31 0 0 = some (63, 31) ∧
    (sample.setFb []).Inv ∧
    (∃ t, exec (.drw 15 1 2) (sample.setFb []) = .next t ∧ t.readReg 15 = (sample.setFb []).readReg 15 ∧
      t.readReg 1 = (sample.setFb []).readReg 1) :=
  ⟨by decide, by decide, by decide, by decide, ⟨by decide, by decide, by decide, .inl rfl⟩, _, rfl, by decide, by decide⟩

/-- Each clause at the first column past the grid, and the last clause at the last cell. -/
theorem witness_PlaceFollowsEdgePolicy :
    Params.spec.edgePolicy = .wrap ∧
    (sample.params.edgePolicy = .clip ∧ ¬ ((63#8).toNat + 1 < sample.params.fbWidth ∧ (0#8).toNat + 0 < sample.params.fbHeight)) ∧
    (cornerSprite .wrapOriginClip).params.edgePolicy = .wrapOriginClip ∧
    ((63#8).toNat + 0 < Params.spec.fbWidth ∧ (31#8).toNat + 0 < Params.spec.fbHeight) := by decide

/-- The smallest grid for `wrap`, and a clipping policy on a grid of one cell. -/
theorem witness_SpriteHitsEachCellAtMostOnce :
    let p : Params := { Params.spec with fbWidth := 8, fbHeight := 15 }
    let q : Params := { Params.spec with fbWidth := 1, fbHeight := 1, edgePolicy := .clip }
    (p.edgePolicy = .wrap → 8 ≤ p.fbWidth ∧ 15 ≤ p.fbHeight) ∧ (q.edgePolicy = .wrap → 8 ≤ q.fbWidth ∧ 15 ≤ q.fbHeight) := by
  decide

theorem witness_DecodeOfEncodeIsIdentity : (Instr.jp 0xFFF#12).WellFormed = true := by decide
theorem witness_EncodeOfDecodeIsTheWord : decodeWord 0xDFFF#16 = .instr (.drw 15 15 15) := by decide

/-- Every range of illegal words, at its ends. -/
theorem witness_IllegalWordsAreTheSpecRanges :
    [0x0000#16, 0x00DF#16, 0x00E1#16, 0x0FFF#16, 0x2000#16, 0x7FFF#16, 0x8000#16, 0x8FFF#16, 0x9000#16, 0xCFFF#16, 0xE000#16,
      0xFFFF#16].all (fun w => decodeWord w = .illegal w) = true := by decide

/-- Each row covers a word at the end of its range. -/
theorem witness_DecoderMatchesOpcodeTable :
    decodeWord 0x8FF4#16 = .instr (.add 15 15) ∧
    [(⟨"CLS", 0x00E0#16, 0xFFFF#16⟩, 0x00E0#16), (⟨"JP", 0x1000#16, 0xF000#16⟩, 0x1FFF#16),
      (⟨"ADD", 0x8004#16, 0xF00F#16⟩, 0x8FF4#16), (⟨"DRW", 0xD000#16, 0xF000#16⟩, 0xDFFF#16)].all
        (fun rw : OpcodeRow × Word => decide (rw.1 ∈ opcodeTable) && decide (rw.2 &&& rw.1.mask = rw.1.pattern)) = true := by
  decide

theorem witness_AssemblerRefusesOrRoundTrips :
    asmInstr (.drw 15 15 15) = some (.drw 15 15 15) ∧ assembleLine (.drw 15 15 16) = none := by decide

/-- The word at the last address, 0x1FFF, is legal; after reset the word is illegal. -/
theorem witness_StepRunsTheDecodedInstruction :
    sample.Running ∧
    decodeWord (wordOfBytes (sample.memRead sample.pc.toNat) (sample.memRead (sample.pc.toNat + 1))) = .instr (.jp 0xFFF#12) ∧
    State.reset.Running ∧
    decodeWord (wordOfBytes (State.reset.memRead 200) (State.reset.memRead 201)) = .illegal 0x0000#16 :=
  ⟨⟨rfl, rfl⟩, by decide, ⟨rfl, rfl⟩, by decide⟩

theorem witness_JumpStepFetchesAtTarget : sample.Running ∧ decodeWord sample.fetchWord = .instr (.jp 0xFFF#12) :=
  ⟨⟨rfl, rfl⟩, by decide⟩

theorem witness_InitializedStepAlwaysAnswers : faulted.initialized = true := by decide
theorem witness_StepNeverWritesMemoryOrIndex : ∃ t, step sample = .next t := ⟨_, rfl⟩

/-- A jump to itself at the last address. -/
theorem witness_SelfJumpIsFixedPoint :
    sample.Running ∧ sample.pc.toNat < 4096 ∧
    wordOfBytes (sample.memRead sample.pc.toNat) (sample.memRead ((sample.pc.toNat + 1) % 4096)) = 0x1000#16 + sample.pc :=
  ⟨⟨rfl, rfl⟩, by decide, by decide⟩

theorem witness_IllegalWordIsPrecise : State.reset.Running ∧ decodeWord State.reset.fetchWord = .illegal 0x0000#16 :=
  ⟨⟨rfl, rfl⟩, by decide⟩

theorem witness_FaultedStepChangesNothing : faulted.initialized = true ∧ faulted.latch.fault = true := by decide

/-- Each status: a legal word, an illegal word, a latch already set. -/
theorem witness_StepReturnsItsStatus :
    (sample.latch.fault = false ∧ decodeWord sample.fetchWord = .instr (.jp 0xFFF#12)) ∧
    decodeWord State.reset.fetchWord = .illegal 0x0000#16 ∧ faulted.latch.fault = true ∧ faulted.initialized = true ∧
    sample.initialized = true := by decide

/-- LOAD on a faulted core: answers, is not INITIALIZE and not STEP. -/
theorem witness_OnlyInitializeClearsLatchOrSetsPc :
    (∃ t resp, runCommand anyDraw (.load [0x12#8]) faulted = .next (t, resp)) ∧ faulted.latch.fault = true ∧
    Command.load [0x12#8] ≠ .init ∧ Command.load [0x12#8] ≠ .step := ⟨⟨_, _, rfl⟩, by decide, by decide, by decide⟩

theorem witness_UninitializedRefusesEveryOtherCommand : unstarted.initialized = false ∧ Command.step ≠ .init := by decide

theorem witness_ReadCommandsArePure : (Command.regRead 255).isRead = true ∧ sample.initialized = true := by decide

/-- For each clause a command of the other kinds answers. -/
theorem witness_EachStateHasOnlyItsWriters :
    (∃ t resp, runCommand anyDraw (.setI 0xFFFF#16) sample = .next (t, resp)) ∧
    (∃ t resp, runCommand anyDraw .step sample = .next (t, resp)) ∧
    Command.setI 0xFFFF#16 ≠ .init ∧ Command.setI 0xFFFF#16 ≠ .step ∧ (∀ r v, Command.setI 0xFFFF#16 ≠ .regWrite r v) ∧
    (∀ v, Command.step ≠ .setI v) ∧ (∀ b, Command.step ≠ .load b) ∧ (∀ a v, Command.step ≠ .memWrite a v) :=
  ⟨⟨_, _, rfl⟩, ⟨_, _, rfl⟩, by simp, by simp, by simp, by simp, by simp, by simp⟩

/-- The last valid index and the first invalid one. -/
theorem witness_RegisterPortReadsBackWrites :
    sample.initialized = true ∧ (15#8).toNat = (15 : RegIdx).val ∧ 16 ≤ (16#8).toNat := by decide

/-- A LOAD of exactly MAX_LOAD bytes, with an address outside it. -/
theorem witness_LoadCopiesTheImage :
    sample.Inv ∧ sample.initialized = true ∧
    (List.replicate 3896 0xAA#8).length ≤ 4096 - sample.params.programOrigin.toNat ∧
    3895 < (List.replicate 3896 0xAA#8).length ∧ 199 < 4096 ∧ 199 < sample.params.programOrigin.toNat :=
  ⟨sample_inv, rfl, by rw [List.length_replicate]; decide, by rw [List.length_replicate]; decide, by decide, by decide⟩

/-- One byte more than MAX_LOAD. -/
theorem witness_OversizedLoadWritesNothing :
    sample.initialized = true ∧ 4096 - sample.params.programOrigin.toNat < (List.replicate 3897 0xAA#8).length :=
  ⟨rfl, by rw [List.length_replicate]; decide⟩

theorem witness_MemoryPortReadsBackWrites : sample.Inv ∧ sample.initialized = true := ⟨sample_inv, rfl⟩
theorem witness_IndexPcAndLatchPorts : faulted.initialized = true := by decide

/-- The last cell of the grid, and the first column and the first row past it. -/
theorem witness_FramebufferPortReadsTheGrid :
    sample.initialized = true ∧
    ((63#8).toNat < sample.params.fbWidth ∧ (31#8).toNat < sample.params.fbHeight) ∧
    sample.params.fbWidth ≤ (64#8).toNat ∧ sample.params.fbHeight ≤ (32#8).toNat := by decide

/-- An image of exactly MAX_LOAD bytes. -/
theorem witness_FirstLoadedInstructionRuns :
    (List.replicate 3894 0xAA#8).length + 2 ≤ 4096 - State.reset.params.programOrigin.toNat := by
  rw [List.length_replicate]; decide

theorem witness_StepKeepsTheInvariant : sample.Inv ∧ ∃ t, step sample = .next t := ⟨sample_inv, _, rfl⟩
theorem witness_CommandsKeepTheInvariant :
    faulted.Inv ∧ ∃ t resp, runCommand anyDraw (.memWrite 0xFFFF#16 0x00#8) faulted = .next (t, resp) :=
  ⟨faulted_inv, _, _, rfl⟩

end Sys2Proof.Tests
end

section
/-! PROOFS. The core INITIALIZE leaves (spec/10_state.md R22, R28): every later statement about reset starts here. -/

namespace Sys2Proof.Machine

/-- INITIALIZE answers OK with the initialised core, whatever the state and the free draw. -/
@[simp] theorem runCommand_init (draw : FreeDraw) (s : State) :
    runCommand draw .init s = .next (s.initCore, .status .ok) := rfl

@[simp] theorem State.initCore_readReg (s : State) (r : RegIdx) : s.initCore.readReg r = 0x00#8 := by
  simp only [State.readReg, State.initCore_v, Fin.getElem_fin, Vector.getElem_replicate]

/-- The reset state is itself an initialised core, so what holds after INITIALIZE holds of it. -/
theorem State.reset_eq_initCore : State.reset = State.reset.initCore := rfl

/-- The 12-bit origin 200 extended to the width of `pc`. -/
theorem originPc_eq_of_origin_200 {p : Params} (h : p.programOrigin.toNat = 200) : originPc p = 0x00C8#16 :=
  BitVec.eq_of_toNat_eq ((originPc_toNat p).trans h)

/-- Settles O1: the state is `initCore`, and the model's reset state is an instance of it. -/
theorem initializeSetsRegistersAndPc : Obligations.InitializeSetsRegistersAndPc := by
  unfold Obligations.InitializeSetsRegistersAndPc
  refine ⟨fun draw s => ⟨s.initCore, runCommand_init draw s, s.initCore_readReg, ?_, originPc_eq_of_origin_200⟩, ?_, ?_⟩
  · rw [State.initCore_pc, originPc_toNat]
  · rw [State.reset_eq_initCore]
    exact State.reset.initCore_readReg
  · exact originPc_eq_of_origin_200 (p := Params.spec) rfl

end Sys2Proof.Machine
end

section
/-! PROOFS. The fetched word and its two bytes in memory (spec/20_memory.md R42). -/

namespace Sys2Proof

/-- The high byte of a word assembled from two bytes; with `wordOfBytes_hi_lo` this makes the assembly a bijection. -/
@[simp] theorem wordHi_wordOfBytes (hi lo : Byte) : wordHi (wordOfBytes hi lo) = hi :=
  BitVec.extractLsb'_append_eq_left

@[simp] theorem wordLo_wordOfBytes (hi lo : Byte) : wordLo (wordOfBytes hi lo) = lo :=
  BitVec.extractLsb'_append_eq_right

namespace Machine

/-- A read sees an address only modulo the 4096 cells of memory (R46, decision D3). -/
theorem State.memRead_mod_4096 (s : State) (a : Nat) : s.memRead (a % 4096) = s.memRead a :=
  congrArg s.mem.readCell (reduceAddr_reduceAddr a)

theorem State.wordHi_fetchWord (s : State) : wordHi s.fetchWord = s.memRead s.pc.toNat :=
  wordHi_wordOfBytes _ _

theorem State.wordLo_fetchWord (s : State) : wordLo s.fetchWord = s.memRead (s.pc.toNat + 1) :=
  wordLo_wordOfBytes _ _

/-- Settles O20: the fetch puts the byte at `pc` first, and its second read wraps at the end of memory by itself. -/
theorem fetchIsBigEndian : Obligations.FetchIsBigEndian := by
  unfold Obligations.FetchIsBigEndian
  intro s
  rw [s.memRead_mod_4096]
  exact ⟨s.wordHi_fetchWord, s.wordLo_fetchWord⟩

end Machine

end Sys2Proof
end

section
/-! PROOFS. One STEP by what the word at `pc` decodes to (spec/40_fetch_decode_dispatch.md R79 to R86). -/

namespace Sys2Proof.Machine

/-! ### The step on a core that runs, one equation per decoded form -/

theorem step_instr {s : State} {i : Instr} (h : s.Running) (hd : decodeWord s.fetchWord = .instr i) :
    step s = exec i s := by
  rw [step_running h, hd]

theorem step_illegal {s : State} {w : Word} (h : s.Running) (hd : decodeWord s.fetchWord = .illegal w) :
    step s = .next (s.raiseIllegal s.pc w) := by
  rw [step_running h, hd]

/-- An initialised core always answers: a latched one with itself, a running one by either equation above. -/
theorem step_answers {s : State} (hi : s.initialized = true) : ∃ t, step s = .next t := by
  cases hf : s.latch.fault with
  | true => exact ⟨s, step_latched hi hf⟩
  | false =>
    cases hd : decodeWord s.fetchWord with
    | instr i =>
      obtain ⟨v, pc, fb, he⟩ := exec_next i s
      exact ⟨_, (step_instr ⟨hi, hf⟩ hd).trans he⟩
    | illegal w => exact ⟨_, step_illegal ⟨hi, hf⟩ hd⟩

/-! ### The latch after a step, and the status that reports it -/

theorem exec_latch {i : Instr} {s t : State} (h : exec i s = .next t) : t.latch = s.latch := by
  obtain ⟨v, pc, fb, he⟩ := exec_next i s
  rw [he] at h
  cases h
  rfl

/-- The step sets the fault bit exactly for an illegal word, and never clears it (R81, R130). -/
theorem step_fault_iff {s t : State} (h : step s = .next t) :
    t.latch.fault = true ↔ s.latch.fault = true ∨ ∃ w, decodeWord s.fetchWord = .illegal w := by
  obtain ⟨-, ⟨hf, rfl⟩ | ⟨hf, i, hd, he⟩ | ⟨hf, hd, rfl⟩⟩ := step_cases h
  · simp [hf]
  · simp [exec_latch he, hf, hd]
  · simp [hd]

theorem exists_instr_iff_not_illegal (d : Decoded) : (∃ i, d = .instr i) ↔ ¬ ∃ w, d = .illegal w := by
  cases d <;> simp

theorem stepStatus_eq_faulted_iff (t : State) : stepStatus t = .faulted ↔ t.latch.fault = true := by
  unfold stepStatus
  split <;> simp [*]

theorem stepStatus_eq_ok_iff (t : State) : stepStatus t = .ok ↔ ¬ t.latch.fault = true := by
  unfold stepStatus
  split <;> simp [*]

/-- The STEP command adds to the step only the status read off the latch of the state it leaves. -/
theorem runCommand_step {s t : State} (draw : FreeDraw) (h : step s = .next t) :
    runCommand draw .step s = .next (t, .status (stepStatus t)) := by
  simp only [runCommand, cmdStep, h]

/-- Settles O29: the status reports the fault bit the step leaves, and a word is either an instruction or illegal. -/
theorem stepReturnsItsStatus : Obligations.StepReturnsItsStatus := by
  unfold Obligations.StepReturnsItsStatus
  intro draw s hi
  obtain ⟨t, ht⟩ := step_answers hi
  refine ⟨t, stepStatus t, runCommand_step draw ht, ht, ?_, ?_⟩
  · rw [stepStatus_eq_ok_iff, step_fault_iff ht, not_or, Bool.not_eq_true, exists_instr_iff_not_illegal]
  · rw [stepStatus_eq_faulted_iff, step_fault_iff ht]

/-! ### Dispatch and the jump -/

/-- Settles O22: the two bytes at `pc` are the fetched word, so each clause is one equation of the step. -/
theorem stepRunsTheDecodedInstruction : Obligations.StepRunsTheDecodedInstruction := by
  unfold Obligations.StepRunsTheDecodedInstruction
  exact fun s hs => ⟨fun i hd => step_instr hs hd, fun w hd => ⟨decodeWord_illegal hd, step_illegal hs hd⟩⟩

theorem State.setPc_fetchWord (s : State) (p : Word) :
    (s.setPc p).fetchWord = wordOfBytes (s.memRead p.toNat) (s.memRead (p.toNat + 1)) := rfl

/-- Settles O23: the jump leaves the state with `pc` at its target, where the next fetch reads the same memory. -/
theorem jumpStepFetchesAtTarget : Obligations.JumpStepFetchesAtTarget := by
  unfold Obligations.JumpStepFetchesAtTarget
  intro s nnn hs hd
  have hstep : step s = .next (s.setPc (jumpTarget nnn)) := (step_instr hs hd).trans (execJp_eq nnn s)
  refine ⟨_, hstep, jumpTarget_toNat nnn, hs, ?_⟩
  rw [State.setPc_fetchWord, jumpTarget_toNat]

end Sys2Proof.Machine
end

section
/-! PROOFS. CLS (spec/41_clear_screen.md R87, R88): `setFb` writes the pixels, `advancePc` writes `pc`, and nothing else is
written. -/

namespace Sys2Proof.Machine

/-- Settles O3: the state CLS leaves is read back through its two updates. -/
theorem clsClearsFramebufferOnly : Obligations.ClsClearsFramebufferOnly := by
  unfold Obligations.ClsClearsFramebufferOnly
  intro s
  refine ⟨_, execCls_eq s, fun q => ?pixels, ?pc, fun r => ?registers, ?index, fun a => ?memory, ?latch, ?params, ?initialized⟩
  case pixels => rw [State.advancePc_fb, State.setFb_fb, Framebuffer.lit_blank]
  case pc => rw [State.advancePc_pc, State.setFb_pc]
  case registers => rw [State.readReg_advancePc, State.readReg_setFb]
  case index => rw [State.advancePc_i, State.setFb_i]
  case memory => rw [State.memRead_advancePc, State.memRead_setFb]
  case latch => rw [State.advancePc_latch, State.setFb_latch]
  case params => rw [State.advancePc_params, State.setFb_params]
  case initialized => rw [State.advancePc_initialized, State.setFb_initialized]

end Sys2Proof.Machine
end

section
/-! PROOFS. JP (spec/42_jump.md R90, R92): its one update is `setPc` at the zero-extended target. -/

namespace Sys2Proof.Machine

/-- Settles O4: zero extension keeps the target's value, and `setPc` writes no other field. -/
theorem jpWritesTargetExactly : Obligations.JpWritesTargetExactly := by
  unfold Obligations.JpWritesTargetExactly
  intro nnn s
  refine ⟨_, execJp_eq nnn s, ?target, State.readReg_setPc s _, State.setPc_i s _, State.memRead_setPc s _, fun q => ?pixels,
    State.setPc_latch s _, State.setPc_params s _, State.setPc_initialized s _⟩
  case target => rw [State.setPc_pc, jumpTarget_toNat]
  case pixels => rw [State.setPc_fb]

end Sys2Proof.Machine
end

section
/-! PROOFS. ADD (spec/43_register_add.md R93 to R97): its word, the register file it leaves, and its frame. -/

namespace Sys2Proof

/-- The word `8xy4` is in ADD's range, and its operand fields hold `x` and `y` (R63). -/
theorem decodeWord_encode_add (x y : RegIdx) : decodeWord (encode (.add x y)) = .instr (.add x y) := by
  have hw := encode_add_toNat x y
  have hx : (fieldX (encode (.add x y))).toFin = x := Fin.ext ((fieldX_toNat _).trans (by omega))
  have hy : (fieldY (encode (.add x y))).toFin = y := Fin.ext ((fieldY_toNat _).trans (by omega))
  obtain ⟨h, -⟩ | ⟨h, -⟩ | ⟨-, -, hd⟩ | ⟨h, -⟩ | ⟨-, -, h, -⟩ := decodeWord_cases (encode (.add x y))
  case inr.inr.inl => rw [hd, hx, hy]
  all_goals omega

namespace Machine

theorem addResult_toNat (a b : Byte) : (addResult a b).toNat = (a.toNat + b.toNat) % 256 :=
  BitVec.toNat_ofNat _ 8

theorem flagByte_addCarry (a b : Byte) :
    flagByte (addCarry a b) = if a.toNat + b.toNat > 255 then 0x01#8 else 0x00#8 :=
  if_congr decide_eq_true_iff rfl rfl

/-- The register file after ADD: VF is decided before `x`, because the flag is the later write (R94, decision D7). -/
theorem readReg_of_execAdd {x y : RegIdx} {s t : State} (h : exec (.add x y) s = .next t) (r : RegIdx) :
    t.readReg r = if r = flagReg then flagByte (addCarry (s.readReg x) (s.readReg y))
      else if r = x then addResult (s.readReg x) (s.readReg y) else s.readReg r := by
  rw [execAdd_eq] at h
  cases h
  rw [State.readReg_advancePc, State.readReg_writeFlag, State.readReg_writeReg]

/-- ADD writes the register file and `pc` alone (R97). -/
theorem execAdd_frame {x y : RegIdx} {s t : State} (h : exec (.add x y) s = .next t) :
    t = { s with v := t.v, pc := s.pc + 2#16 } := by
  rw [execAdd_eq] at h
  cases h
  rfl

/-- Settles O5: the register clauses read the register file law at `x`, at VF and elsewhere; the others are the frame's. -/
theorem addWritesSumAndCarry : Obligations.AddWritesSumAndCarry := by
  unfold Obligations.AddWritesSumAndCarry
  intro x y s
  obtain ⟨t, ht⟩ : ∃ t, exec (.add x y) s = .next t := ⟨_, execAdd_eq x y s⟩
  have reg := readReg_of_execAdd ht
  refine ⟨decodeWord_encode_add x y, t, ht, fun hx => ?sum, ?carry, fun r hrx hr => ?others, ?frame⟩
  case sum => rw [reg, if_neg hx, if_pos rfl, addResult_toNat]
  case carry => rw [reg, if_pos rfl, flagByte_addCarry]
  case others => rw [reg, if_neg hr, if_neg hrx]
  case frame =>
    rw [execAdd_frame ht]
    exact ⟨rfl, rfl, fun _ => rfl, fun _ => rfl, rfl, rfl, rfl⟩

end Machine

end Sys2Proof
end

section
/-! PROOFS. The pixels DRW leaves (spec/44_sprite_draw.md R98 to R101): a sprite is one list of offsets, each inverts at most
one cell, so a cell ends inverted exactly when an odd number of set bits is placed on it. -/

namespace Sys2Proof.Machine

/-! ### A sprite as one list of offsets -/

/-- The (row, column) offsets of an `n`-row sprite in the order they are drawn (R107). -/
def spriteOffsets (n : Nat) : List (Nat × Nat) := List.range n ×ˢ List.range 8

@[simp] theorem mem_spriteOffsets {n : Nat} {o : Nat × Nat} : o ∈ spriteOffsets n ↔ o.1 < n ∧ o.2 < 8 := by
  rw [spriteOffsets, List.mem_product, List.mem_range, List.mem_range]

theorem nodup_spriteOffsets (n : Nat) : (spriteOffsets n).Nodup :=
  List.nodup_range.product List.nodup_range

/-- The sprite bit at offset `o` is 1 and `place` puts it on the cell `q`. -/
def offsetHits (p : Params) (cx cy : Byte) (rows : Nat → Byte) (q : Pixel) (o : Nat × Nat) : Bool :=
  spriteBit (rows o.1) o.2 && decide (place p cx cy o.1 o.2 = some q)

theorem drawSprite_eq_foldl (p : Params) (cx cy : Byte) (rows : Nat → Byte) (n : Nat) (acc : Blit) :
    drawSprite p cx cy rows n acc =
      (spriteOffsets n).foldl (fun acc o => drawPixel p cx cy (rows o.1) o.1 o.2 acc) acc := by
  simp only [drawSprite, drawRow, spriteOffsets, SProd.sprod, List.product, List.foldl_flatMap, List.foldl_map]

theorem spriteHits_eq_countP (p : Params) (cx cy : Byte) (rows : Nat → Byte) (n : Nat) (q : Pixel) :
    spriteHits p cx cy rows n q = (spriteOffsets n).countP (offsetHits p cx cy rows q) := by
  simp only [spriteHits, spriteOffsets, SProd.sprod, List.product, List.countP_flatMap, List.countP_map, Function.comp_def,
    offsetHits]

/-! ### The framebuffer after one pixel and after a whole sprite -/

/-- One pixel position keeps the row-major order and inverts just the cell it hits. -/
theorem drawPixel_pixels (p : Params) (cx cy : Byte) (rows : Nat → Byte) (o : Nat × Nat) {acc : Blit}
    (hs : acc.1.Pairwise Pixel.Before) :
    (drawPixel p cx cy (rows o.1) o.1 o.2 acc).1.Pairwise Pixel.Before ∧
    ∀ q, (drawPixel p cx cy (rows o.1) o.1 o.2 acc).1.lit q = (acc.1.lit q ^^ offsetHits p cx cy rows q o) := by
  obtain ⟨e, hnone⟩ | ⟨q₀, hbit, hplace, e⟩ := drawPixel_cases p cx cy (rows o.1) o.1 o.2 acc
  · have hmiss (q : Pixel) : offsetHits p cx cy rows q o = false := by
      rcases hnone with h | h <;> simp [offsetHits, h]
    exact ⟨by rw [e]; exact hs, fun q => by rw [e, hmiss, Bool.xor_false]⟩
  · refine ⟨by rw [e]; exact Framebuffer.sorted_flip hs q₀, fun q => ?_⟩
    rw [e, xorCell, Framebuffer.lit_flip hs, offsetHits, hbit, hplace]
    by_cases h : q = q₀
    · simp [h]
    · simp [h, Ne.symm h]

theorem decide_odd_add (m n : Nat) :
    decide ((m + n) % 2 = 1) = (decide (m % 2 = 1) ^^ decide (n % 2 = 1)) := by
  rcases Nat.mod_two_eq_zero_or_one m with hm | hm <;> rcases Nat.mod_two_eq_zero_or_one n with hn | hn <;>
    simp [Nat.add_mod, hm, hn]

/-- Offsets drawn in turn invert a cell once for each that hits it. -/
theorem lit_foldl_drawPixel (p : Params) (cx cy : Byte) (rows : Nat → Byte) (q : Pixel) (os : List (Nat × Nat)) {acc : Blit}
    (hs : acc.1.Pairwise Pixel.Before) :
    (os.foldl (fun acc o => drawPixel p cx cy (rows o.1) o.1 o.2 acc) acc).1.lit q =
      (acc.1.lit q ^^ decide (os.countP (offsetHits p cx cy rows q) % 2 = 1)) := by
  induction os generalizing acc with
  | nil => simp
  | cons o os ih =>
    obtain ⟨hs', hlit⟩ := drawPixel_pixels p cx cy rows o hs
    rw [List.foldl_cons, ih hs', hlit, List.countP_cons, decide_odd_add, Bool.xor_assoc, Bool.xor_comm (offsetHits ..)]
    cases offsetHits p cx cy rows q o <;> rfl

/-- The pixels of a whole sprite in closed form, under every edge policy (R98, R101). -/
theorem lit_drawSprite (p : Params) (cx cy : Byte) (rows : Nat → Byte) (n : Nat) (q : Pixel) {acc : Blit}
    (hs : acc.1.Pairwise Pixel.Before) :
    (drawSprite p cx cy rows n acc).1.lit q = (acc.1.lit q ^^ decide (spriteHits p cx cy rows n q % 2 = 1)) := by
  rw [drawSprite_eq_foldl, lit_foldl_drawPixel p cx cy rows q _ hs, spriteHits_eq_countP]

/-! ### What a sprite inside the grid hits -/

/-- A raw coordinate on the grid is its own place: reduction does not move it and clipping does not drop it (R103). -/
theorem place_of_lt {p : Params} {cx cy : Byte} {r c : Nat} (hu : cx.toNat + c < p.fbWidth)
    (hv : cy.toNat + r < p.fbHeight) : place p cx cy r c = some (cx.toNat + c, cy.toNat + r) := by
  unfold place
  split
  · rw [Nat.mod_eq_of_lt hu, Nat.mod_eq_of_lt hv]
  · exact if_pos ⟨hu, hv⟩
  · rw [Nat.mod_eq_of_lt (by omega), Nat.mod_eq_of_lt (by omega)]
    exact if_pos ⟨hu, hv⟩

section
variable {p : Params} {cx cy : Byte} {n : Nat} (hin : SpriteInside p cx cy n)
include hin

theorem SpriteInside.place_eq {o : Nat × Nat} (ho : o ∈ spriteOffsets n) :
    place p cx cy o.1 o.2 = some (cx.toNat + o.2, cy.toNat + o.1) := by
  obtain ⟨hw, hh⟩ := hin
  obtain ⟨hr, hc⟩ := mem_spriteOffsets.mp ho
  exact place_of_lt (by omega) (by omega)

/-- Only the offset of a cell in the rectangle is placed on it, and that bit decides (R100). -/
theorem SpriteInside.spriteHits_eq (rows : Nat → Byte) {r c : Nat} (hr : r < n) (hc : c < 8) :
    spriteHits p cx cy rows n (cx.toNat + c, cy.toNat + r) = (spriteBit (rows r) c).toNat := by
  have hmem : (r, c) ∈ spriteOffsets n := mem_spriteOffsets.mpr ⟨hr, hc⟩
  have honly : ∀ o ∈ spriteOffsets n,
      offsetHits p cx cy rows (cx.toNat + c, cy.toNat + r) o = true ↔ (spriteBit (rows r) c && (o == (r, c))) = true := by
    rintro ⟨r', c'⟩ ho
    have hplace : place p cx cy r' c' = some (cx.toNat + c', cy.toNat + r') := hin.place_eq ho
    simp only [offsetHits, hplace, Bool.and_eq_true, decide_eq_true_eq, beq_iff_eq, Option.some.injEq, Prod.mk.injEq,
      Nat.add_left_cancel_iff]
    constructor <;> (rintro ⟨hbit, rfl, rfl⟩; exact ⟨hbit, rfl, rfl⟩)
  rw [spriteHits_eq_countP, List.countP_congr honly]
  cases spriteBit (rows r) c with
  | false => simp
  | true => simpa [List.count] using List.count_eq_one_of_mem (nodup_spriteOffsets n) hmem

theorem SpriteInside.spriteHits_eq_zero (rows : Nat → Byte) {q : Pixel}
    (hq : ∀ r c, r < n → c < 8 → q ≠ (cx.toNat + c, cy.toNat + r)) : spriteHits p cx cy rows n q = 0 := by
  rw [spriteHits_eq_countP, List.countP_eq_zero]
  intro o ho hhit
  obtain ⟨hr, hc⟩ := mem_spriteOffsets.mp ho
  rw [offsetHits, hin.place_eq ho, Bool.and_eq_true, decide_eq_true_eq, Option.some_inj] at hhit
  exact hq o.1 o.2 hr hc hhit.2.symm

end

/-! ### DRW -/

/-- The pixels DRW leaves are those of its sprite drawn onto the old framebuffer, in closed form (R98). -/
theorem lit_of_execDrw {x y : RegIdx} {n : Fin 16} {s t : State} (hs : s.fb.wf s.params)
    (h : exec (.drw x y n) s = .next t) (q : Pixel) :
    t.fb.lit q =
      (s.fb.lit q ^^ decide (spriteHits s.params (s.readReg x) (s.readReg y) s.spriteRow n.val q % 2 = 1)) := by
  rw [execDrw_eq] at h
  cases h
  exact lit_drawSprite _ _ _ _ _ q hs.1

/-- DRW writes the framebuffer, the register file (at VF) and `pc` alone (R107). -/
theorem execDrw_frame {x y : RegIdx} {n : Fin 16} {s t : State} (h : exec (.drw x y n) s = .next t) :
    t = { s with v := t.v, pc := s.pc + 2#16, fb := t.fb } := by
  rw [execDrw_eq] at h
  cases h
  rfl

theorem execDrw_fb_wf {x y : RegIdx} {n : Fin 16} {s t : State} (hp : s.params.wf) (hs : s.fb.wf s.params)
    (h : exec (.drw x y n) s = .next t) : t.fb.wf t.params := by
  rw [execDrw_eq] at h
  cases h
  exact drawSprite_wf hp _ _ _ _ _ hs

/-- Settles O10: in the rectangle one bit decides the number of hits, outside it there are none. -/
theorem drwInsideGridBitOrder : Obligations.DrwInsideGridBitOrder := by
  unfold Obligations.DrwInsideGridBitOrder
  intro x y n s hinv hin
  obtain ⟨t, ht⟩ : ∃ t, exec (.drw x y n) s = .next t := ⟨_, execDrw_eq x y n s⟩
  refine ⟨t, ht, fun r c hr hc => ?inside, fun q hq => ?outside⟩
  case inside =>
    rw [lit_of_execDrw hinv.fb ht, hin.spriteHits_eq _ hr hc]
    show _ = (_ ^^ spriteBit (s.spriteRow r) c)
    cases spriteBit (s.spriteRow r) c <;> rfl
  case outside =>
    rw [lit_of_execDrw hinv.fb ht, hin.spriteHits_eq_zero _ hq]
    exact Bool.xor_false _

/-- A second draw of the same rows at the same coordinates hits every cell as often as the first, so the two cancel. -/
theorem lit_of_execDrw_twice {x y : RegIdx} {n : Fin 16} {s t u : State} (hinv : s.Inv)
    (ht : exec (.drw x y n) s = .next t) (hu : exec (.drw x y n) t = .next u)
    (hx : t.readReg x = s.readReg x) (hy : t.readReg y = s.readReg y) (q : Pixel) : u.fb.lit q = s.fb.lit q := by
  have hparams : t.params = s.params := by rw [execDrw_frame ht]
  have hrows : t.spriteRow = s.spriteRow := by rw [execDrw_frame ht]; rfl
  rw [lit_of_execDrw (execDrw_fb_wf hinv.params hinv.fb ht) hu, lit_of_execDrw hinv.fb ht, hparams, hrows, hx, hy,
    Bool.xor_assoc, Bool.xor_self, Bool.xor_false]

/-- Settles O11: one pixel inverts the cell it is placed on, and two equal draws cancel. -/
theorem spriteXorAndRedrawRestores : Obligations.SpriteXorAndRedrawRestores := by
  unfold Obligations.SpriteXorAndRedrawRestores
  refine ⟨fun p cx cy row r c acc hacc => ⟨fun hbit => ?bitZero, fun q hbit hplace q' => ?bitOne⟩,
    fun x y n s t hinv ht hx hy => ⟨_, execDrw_eq x y n t, lit_of_execDrw_twice hinv ht (execDrw_eq x y n t) hx hy⟩⟩
  case bitZero => simp [drawPixel, hbit]
  case bitOne =>
    have hxor : drawPixel p cx cy row r c acc = xorCell acc q := by simp [drawPixel, hbit, hplace]
    rw [hxor]
    exact Framebuffer.lit_flip hacc.1 q q'

end Sys2Proof.Machine
end

section
/-! PROOFS. LOAD (spec/45_host_interface.md R112): the bytes its loop writes are read back from memory, and the loop writes
nothing else. -/

namespace Sys2Proof.Machine

theorem reduceAddr_of_lt {a : Nat} (h : a < memSize) : reduceAddr a = a := Nat.mod_eq_of_lt h

/-- A write inside memory is seen at its own address alone: below `MEM_SIZE` no two addresses reduce to one cell. -/
theorem State.memRead_memWrite_of_lt {s : State} (hm : s.mem.wf) {a a' : Nat} (ha : a < memSize) (ha' : a' < memSize)
    (b : Byte) : (s.memWrite a b).memRead a' = if a' = a then b else s.memRead a' := by
  rw [s.memRead_memWrite hm, reduceAddr_of_lt ha, reduceAddr_of_lt ha']

theorem State.memRead_memWriteAll_outside {s : State} (hm : s.mem.wf) {a a' : Nat} {bytes : List Byte}
    (hfit : a + bytes.length ≤ memSize) (ha' : a' < memSize) (hout : a' < a ∨ a + bytes.length ≤ a') :
    (s.memWriteAll a bytes).memRead a' = s.memRead a' := by
  induction bytes generalizing s a with
  | nil => rfl
  | cons b rest ih =>
    rw [List.length_cons] at hfit hout
    calc ((s.memWrite a b).memWriteAll (a + 1) rest).memRead a'
      _ = (s.memWrite a b).memRead a' := ih (s.memWrite_wf hm a b) (by omega) (by omega)
      _ = s.memRead a' := by rw [State.memRead_memWrite_of_lt hm (by omega) ha', if_neg (by omega)]

/-- The later writes of the loop lie above the first, so the first byte is still there at the end. -/
theorem State.memRead_memWriteAll_inside {s : State} (hm : s.mem.wf) {a k : Nat} {bytes : List Byte}
    (hfit : a + bytes.length ≤ memSize) (hk : k < bytes.length) :
    (s.memWriteAll a bytes).memRead (a + k) = bytes[k] := by
  induction bytes generalizing s a k with
  | nil => exact absurd hk (Nat.not_lt_zero k)
  | cons b rest ih =>
    have hm' := s.memWrite_wf hm a b
    rw [List.length_cons] at hfit hk
    cases k with
    | zero =>
      calc ((s.memWrite a b).memWriteAll (a + 1) rest).memRead a
        _ = (s.memWrite a b).memRead a := State.memRead_memWriteAll_outside hm' (by omega) (by omega) (by omega)
        _ = b := by rw [State.memRead_memWrite_of_lt hm (by omega) (by omega), if_pos rfl]
    | succ j =>
      rw [← Nat.add_assoc, Nat.add_right_comm]
      exact ih hm' (by omega) (by omega)

theorem origin_add_le_memSize {p : Params} {n : Nat} (h : n ≤ maxLoad p) : originAddr p + n ≤ memSize :=
  Nat.add_le_of_le_sub' p.programOrigin.isLt.le h

theorem runCommand_load_of_fits (draw : FreeDraw) {bytes : List Byte} {s : State} (hi : s.initialized = true)
    (hfit : bytes.length ≤ maxLoad s.params) :
    runCommand draw (.load bytes) s = .next (s.memWriteAll (originAddr s.params) bytes, .status .ok) := by
  simp only [runCommand, cmdLoad, if_neg (Nat.not_lt.mpr hfit), whenInitialized_of hi]

/-- Settles O35: the memory clauses are the loop's two read laws at the origin, the others its frame. -/
theorem loadCopiesTheImage : Obligations.LoadCopiesTheImage := by
  unfold Obligations.LoadCopiesTheImage
  intro draw bytes s hinv hi hlen
  have hfit := origin_add_le_memSize hlen
  refine ⟨_, runCommand_load_of_fits draw hi hlen, fun k hk => ?inside, fun a ha hout => ?outside, ?frame⟩
  case inside => exact State.memRead_memWriteAll_inside hinv.mem hfit hk
  case outside => exact State.memRead_memWriteAll_outside hinv.mem hfit ha hout
  case frame =>
    rw [State.memWriteAll_frame]
    exact ⟨fun _ => rfl, rfl, rfl, fun _ => rfl, rfl⟩

end Sys2Proof.Machine
end

section
/-! PROOFS. The commands that only read (spec/45_host_interface.md R127). -/

namespace Sys2Proof.Machine

/-- A command whose answer carries the present state leaves it, whatever it responds. -/
theorem whenInitialized_keeps {s : State} {answer : State × Response} (hi : s.initialized = true) (h : answer.1 = s) :
    ∃ resp, whenInitialized s answer = .next (s, resp) := by
  obtain ⟨t, resp⟩ := answer
  cases h
  exact ⟨resp, whenInitialized_of hi _⟩

/-- Settles O32: each read answers the present state; REG_READ and FB_READ do so for a valid and for an invalid argument. -/
theorem readCommandsArePure : Obligations.ReadCommandsArePure := by
  unfold Obligations.ReadCommandsArePure
  intro draw c s hread hi
  cases c with
  | regRead r =>
    refine whenInitialized_keeps hi ?_
    cases hostReg r with
    | some k => rfl
    | none => rfl
  | fbRead px py =>
    refine whenInitialized_keeps hi ?_
    split
    · rfl
    · rfl
  | pcRead | iRead | memRead _ | faultRead => exact whenInitialized_keeps hi rfl
  | init | load _ | step | regWrite _ _ | setI _ | memWrite _ _ => cases hread

end Sys2Proof.Machine
end

section
/-! PROOFS. The only writers of `pc` and the fault latch (spec/70_reset_and_hazards.md R146): INITIALIZE sets both, STEP moves
`pc` and sets a clear latch, and no other command reaches either. -/

namespace Sys2Proof.Machine

/-- A guarded command that answers keeps `pc` and the latch if the answer it carries does. -/
theorem whenInitialized_pc_latch {s t : State} {answer : State × Response} {resp : Response}
    (h : whenInitialized s answer = .next (t, resp)) (hkeep : answer.1.pc = s.pc ∧ answer.1.latch = s.latch) :
    t.pc = s.pc ∧ t.latch = s.latch := by
  obtain ⟨-, rfl⟩ := whenInitialized_next h
  exact hkeep

theorem State.memWriteAll_pc_latch (s : State) (a : Nat) (bytes : List Byte) :
    (s.memWriteAll a bytes).pc = s.pc ∧ (s.memWriteAll a bytes).latch = s.latch := by
  rw [State.memWriteAll_frame]
  exact ⟨rfl, rfl⟩

/-- Every command but INITIALIZE and STEP is guarded, and what it writes is neither `pc` nor the latch. -/
theorem runCommand_pc_latch {draw : FreeDraw} {c : Command} {s t : State} {resp : Response}
    (h : runCommand draw c s = .next (t, resp)) (hinit : c ≠ .init) (hstep : c ≠ .step) :
    t.pc = s.pc ∧ t.latch = s.latch := by
  cases c with
  | init => exact absurd rfl hinit
  | step => exact absurd rfl hstep
  | load bytes =>
    refine whenInitialized_pc_latch h ?_
    split
    · exact ⟨rfl, rfl⟩
    · exact s.memWriteAll_pc_latch _ bytes
  | regWrite r v =>
    refine whenInitialized_pc_latch h ?_
    cases hostReg r with
    | some k => exact ⟨s.writeReg_pc k v, s.writeReg_latch k v⟩
    | none => exact ⟨rfl, rfl⟩
  | setI v => exact whenInitialized_pc_latch h ⟨s.setIndex_pc v, s.setIndex_latch v⟩
  | memWrite addr v => exact whenInitialized_pc_latch h ⟨s.memWrite_pc _ v, s.memWrite_latch _ v⟩
  | regRead r =>
    refine whenInitialized_pc_latch h ?_
    cases hostReg r with
    | some k => exact ⟨rfl, rfl⟩
    | none => exact ⟨rfl, rfl⟩
  | fbRead px py =>
    refine whenInitialized_pc_latch h ?_
    split
    · exact ⟨rfl, rfl⟩
    · exact ⟨rfl, rfl⟩
  | pcRead | iRead | memRead _ | faultRead => exact whenInitialized_pc_latch h ⟨rfl, rfl⟩

/-- A latched core steps to itself (R81), so STEP does not clear the latch either. -/
theorem step_eq_self_of_fault {s t : State} (h : step s = .next t) (hf : s.latch.fault = true) : t = s := by
  obtain ⟨-, ⟨-, rfl⟩ | ⟨hrun, -⟩ | ⟨hrun, -⟩⟩ := step_cases h
  · rfl
  · simp [hf] at hrun
  · simp [hf] at hrun

/-- Settles O30: INITIALIZE leaves the initialised core; of the other commands only STEP needs the latch to be set already. -/
theorem onlyInitializeClearsLatchOrSetsPc : Obligations.OnlyInitializeClearsLatchOrSetsPc := by
  unfold Obligations.OnlyInitializeClearsLatchOrSetsPc
  refine ⟨fun draw s => ⟨s.initCore, runCommand_init draw s, rfl, ?origin⟩,
    fun draw c s t resp h hinit => ⟨fun hf => ?latch, fun hstep => ?pc⟩⟩
  case origin => rw [State.initCore_pc, originPc_toNat]
  case latch =>
    by_cases hstep : c = .step
    · subst hstep
      obtain ⟨hnext, -⟩ := cmdStep_next h
      rw [step_eq_self_of_fault hnext hf]
    · exact (runCommand_pc_latch h hinit hstep).2
  case pc => exact (runCommand_pc_latch h hinit hstep).1

end Sys2Proof.Machine
end

section
/-! PROOFS. Encoding (spec/30_encoding.md): the decoder and the encoder are inverse to each other, so the words an instruction
is decoded from, the rows of the opcode table and the lines of the assembler all speak of the same words. -/

namespace Sys2Proof

/-! ### Decode after encode -/

theorem decodeWord_encode_jp (nnn : Addr12) : decodeWord (encode (.jp nnn)) = .instr (.jp nnn) := by
  have hw := encode_jp_toNat nnn
  have hn := nnn.isLt
  have hf : fieldNnn (encode (.jp nnn)) = nnn := BitVec.eq_of_toNat_eq ((fieldNnn_toNat _).trans (by omega))
  obtain ⟨h, -⟩ | ⟨-, hd⟩ | ⟨h, -⟩ | ⟨h, -⟩ | ⟨-, h, -⟩ := decodeWord_cases (encode (.jp nnn))
  case inr.inl => rw [hd, hf]
  all_goals omega

theorem decodeWord_encode_drw (x y : RegIdx) (n : Fin 16) :
    decodeWord (encode (.drw x y n)) = .instr (.drw x y n) := by
  have hw := encode_drw_toNat x y n
  have hx : (fieldX (encode (.drw x y n))).toFin = x := Fin.ext ((fieldX_toNat _).trans (by omega))
  have hy : (fieldY (encode (.drw x y n))).toFin = y := Fin.ext ((fieldY_toNat _).trans (by omega))
  have hn : (fieldN (encode (.drw x y n))).toFin = n := Fin.ext ((fieldN_toNat _).trans (by omega))
  obtain ⟨h, -⟩ | ⟨h, -⟩ | ⟨h, -⟩ | ⟨-, hd⟩ | ⟨-, -, -, h, -⟩ := decodeWord_cases (encode (.drw x y n))
  case inr.inr.inr.inl => rw [hd, hx, hy, hn]
  all_goals omega

@[simp] theorem decodeWord_encode (i : Instr) : decodeWord (encode i) = .instr i := by
  cases i with
  | cls => rfl
  | jp nnn => exact decodeWord_encode_jp nnn
  | add x y => exact decodeWord_encode_add x y
  | drw x y n => exact decodeWord_encode_drw x y n

/-- An image that begins with a word's two bytes gives the word to the decoder (R73). -/
theorem decodeBytes_bytesOfWord (w : Word) (rest : List Byte) :
    decodeBytes (bytesOfWord w ++ rest) = some (decodeWord w, rest) := by
  show some (decodeWord (wordOfBytes (wordHi w) (wordLo w)), rest) = _
  rw [wordOfBytes_hi_lo]

theorem decodeBytes_encode (i : Instr) (rest : List Byte) :
    decodeBytes (bytesOfWord (encode i) ++ rest) = some (.instr i, rest) := by
  rw [decodeBytes_bytesOfWord, decodeWord_encode]

/-- Settles O14: each encoded word lies in its own instruction's range, and its fields hold the operands. -/
theorem decodeOfEncodeIsIdentity : Obligations.DecodeOfEncodeIsIdentity := by
  unfold Obligations.DecodeOfEncodeIsIdentity
  exact fun i rest _ => ⟨decodeWord_encode i, decodeBytes_encode i rest⟩

/-! ### Encode after decode -/

theorem encode_of_decodeWord {w : Word} {i : Instr} (h : decodeWord w = .instr i) : encode i = w := by
  apply BitVec.eq_of_toNat_eq
  obtain ⟨hw, hd⟩ | ⟨hw, hd⟩ | ⟨hop, hsel, hd⟩ | ⟨hw, hd⟩ | ⟨-, -, -, -, hd⟩ := decodeWord_cases w <;> rw [hd] at h <;> cases h
  case inl => rw [encode_cls_toNat, hw]
  case inr.inl =>
    rw [encode_jp_toNat, fieldNnn_toNat]
    omega
  case inr.inr.inl =>
    rw [encode_add_toNat, BitVec.val_toFin, BitVec.val_toFin, fieldX_toNat, fieldY_toNat]
    omega
  case inr.inr.inr.inl =>
    rw [encode_drw_toNat, BitVec.val_toFin, BitVec.val_toFin, BitVec.val_toFin, fieldX_toNat, fieldY_toNat, fieldN_toNat]
    omega

/-- Settles O15: the word of each range is rebuilt from its fields. -/
theorem encodeOfDecodeIsTheWord : Obligations.EncodeOfDecodeIsTheWord := by
  unfold Obligations.EncodeOfDecodeIsTheWord
  exact fun _ _ => encode_of_decodeWord

/-! ### Words -/

/-- Settles O16: four words are encodings, the other two are decoded by computation. -/
theorem sampleWordsDecode : Obligations.SampleWordsDecode := by
  unfold Obligations.SampleWordsDecode
  exact ⟨decodeWord_encode .cls, decodeWord_encode (.jp 0x789#12), decodeWord_encode (.add 1 2),
    decodeWord_encode (.drw 0 1 2), by decide, by decide⟩

/-- Settles O17: outside the table's ranges lie just the words of the four instructions. -/
theorem illegalWordsAreTheSpecRanges : Obligations.IllegalWordsAreTheSpecRanges := by
  unfold Obligations.IllegalWordsAreTheSpecRanges
  intro w
  obtain ⟨hw, hd⟩ | ⟨hw, hd⟩ | ⟨hop, hsel, hd⟩ | ⟨hw, hd⟩ | ⟨hcls, hjp, hadd, hdrw, hd⟩ := decodeWord_cases w
  case inr.inr.inr.inr =>
    refine iff_of_true hd ?_
    omega
  all_goals
    refine iff_of_false (by simp [hd]) ?_
    omega

/-! ### The opcode table -/

theorem opcodeRow_mem_opcodeTable (i : Instr) : opcodeRow i ∈ opcodeTable := by
  cases i <;> simp [opcodeRow, opcodeTable]

theorem opcodeRow_covers_encode (i : Instr) : (opcodeRow i).Covers (encode i) := by
  cases i with
  | cls => exact Laws.FixedBits.cls
  | jp nnn => exact Laws.FixedBits.jp nnn
  | add x y => exact Laws.FixedBits.add x y
  | drw x y n => exact Laws.FixedBits.drw x y n

theorem fieldOp_and (w m : Word) : fieldOp (w &&& m) = fieldOp w &&& fieldOp m := BitVec.extractLsb'_and

theorem fieldN_and (w m : Word) : fieldN (w &&& m) = fieldN w &&& fieldN m := BitVec.extractLsb'_and

/-- A row whose mask holds the whole family nibble fixes that nibble. -/
theorem OpcodeRow.Covers.fieldOp_eq {row : OpcodeRow} {w : Word} (h : row.Covers w)
    (hmask : fieldOp row.mask = BitVec.allOnes 4) : fieldOp w = fieldOp row.pattern := by
  rw [← h, fieldOp_and, hmask, BitVec.and_allOnes]

theorem OpcodeRow.Covers.fieldN_eq {row : OpcodeRow} {w : Word} (h : row.Covers w)
    (hmask : fieldN row.mask = BitVec.allOnes 4) : fieldN w = fieldN row.pattern := by
  rw [← h, fieldN_and, hmask, BitVec.and_allOnes]

/-- The four rows are disjoint, and the decoder finds the one that covers the word. -/
theorem decodeWord_of_covers {row : OpcodeRow} {w : Word} (hrow : row ∈ opcodeTable) (h : row.Covers w) :
    ∃ i, decodeWord w = .instr i ∧ opcodeRow i = row := by
  simp only [opcodeTable, List.mem_cons, List.not_mem_nil, or_false] at hrow
  obtain rfl | rfl | rfl | rfl := hrow
  case inl =>
    have hw : w = clsWord := (BitVec.and_allOnes).symm.trans h
    exact ⟨.cls, by rw [hw]; rfl, rfl⟩
  case inr.inl =>
    have hop : w.toNat / 4096 = 1 := (fieldOp_eq_iff w jpOp).mp (h.fieldOp_eq rfl)
    obtain ⟨hw, -⟩ | ⟨-, hd⟩ | ⟨hw, -⟩ | ⟨hw, -⟩ | ⟨-, hw, -⟩ := decodeWord_cases w
    case inr.inl => exact ⟨_, hd, rfl⟩
    all_goals omega
  case inr.inr.inl =>
    have hop : w.toNat / 4096 = 8 := (fieldOp_eq_iff w addOp).mp (h.fieldOp_eq rfl)
    have hsel : w.toNat % 16 = 4 := (fieldN_eq_iff w addSel).mp (h.fieldN_eq rfl)
    obtain ⟨hw, -⟩ | ⟨hw, -⟩ | ⟨-, -, hd⟩ | ⟨hw, -⟩ | ⟨-, -, hw, -⟩ := decodeWord_cases w
    case inr.inr.inl => exact ⟨_, hd, rfl⟩
    all_goals omega
  case inr.inr.inr =>
    have hop : w.toNat / 4096 = 13 := (fieldOp_eq_iff w drwOp).mp (h.fieldOp_eq rfl)
    obtain ⟨hw, -⟩ | ⟨hw, -⟩ | ⟨hw, -⟩ | ⟨-, hd⟩ | ⟨-, -, -, hw, -⟩ := decodeWord_cases w
    case inr.inr.inr.inl => exact ⟨_, hd, rfl⟩
    all_goals omega

/-- Settles O18: a decoded word is its instruction's encoding, which shows its row's fixed bits; and the row that covers a word
fixes the fields that the decoder tests. -/
theorem decoderMatchesOpcodeTable : Obligations.DecoderMatchesOpcodeTable := by
  unfold Obligations.DecoderMatchesOpcodeTable
  refine fun w => ⟨fun i hd => ⟨opcodeRow_mem_opcodeTable i, ?_⟩, fun row => decodeWord_of_covers⟩
  rw [← encode_of_decodeWord hd]
  exact opcodeRow_covers_encode i

/-! ### The assembler -/

namespace Machine

theorem assembleLine_of_asmInstr {line : AsmLine} {i : Instr} (h : asmInstr line = some i) :
    assembleLine line = some (bytesOfWord (encode i)) := by
  cases line with
  | rawByte b => cases h
  | cls | jp _ | add _ _ | drw _ _ _ => rw [assembleLine, h, Option.map_some]

/-- A line is refused exactly when some operand of it does not fit (R72). -/
theorem assembleLine_eq_none_iff (line : AsmLine) : assembleLine line = none ↔ line.WellFormed = false := by
  cases line with
  | cls => exact iff_of_false (by simp [assembleLine, asmInstr]) (by simp [AsmLine.WellFormed])
  | jp nnn =>
    simp only [assembleLine, asmInstr, Option.map_if, ite_eq_right_iff, reduceCtorEq, imp_false, AsmLine.WellFormed,
      decide_eq_false_iff_not]
    omega
  | add x y =>
    simp only [assembleLine, asmInstr, Option.map_dif, dite_eq_right_iff, reduceCtorEq, imp_false, AsmLine.WellFormed,
      ← Bool.decide_and, decide_eq_false_iff_not]
    omega
  | drw x y n =>
    simp only [assembleLine, asmInstr, Option.map_dif, dite_eq_right_iff, reduceCtorEq, imp_false, AsmLine.WellFormed,
      ← Bool.decide_and, decide_eq_false_iff_not]
    omega
  | rawByte b =>
    simp only [assembleLine, ite_eq_right_iff, reduceCtorEq, imp_false, AsmLine.WellFormed, decide_eq_false_iff_not]
    omega

/-- Settles O19: an instruction line assembles to its encoding, which decodes back. -/
theorem assemblerRefusesOrRoundTrips : Obligations.AssemblerRefusesOrRoundTrips := by
  unfold Obligations.AssemblerRefusesOrRoundTrips
  exact fun line => ⟨assembleLine_eq_none_iff line,
    fun i rest h => ⟨_, assembleLine_of_asmInstr h, rfl, decodeBytes_encode i rest⟩⟩

end Machine

end Sys2Proof
end

section
/-! PROOFS. The invariant (spec/10_state.md) and the host commands: what a command that answers can do is said once, and the
invariant and the writers of each piece of state are read off it. -/

namespace Sys2Proof.Machine

/-! ### STEP keeps the invariant -/

/-- A clear fault bit leaves only one coherent latch. -/
theorem State.LatchOk.eq_clear {s : State} (h : s.LatchOk) (hf : s.latch.fault = false) : s.latch = FaultLatch.clear := by
  obtain h | ⟨w, -, h⟩ := h
  · exact h
  · rw [h] at hf
    cases hf

/-- Every instruction leaves a canonical framebuffer. -/
theorem exec_fb_wf {i : Instr} {s t : State} (hs : s.Inv) (h : exec i s = .next t) : t.fb.wf t.params := by
  cases i with
  | cls =>
    rw [execCls_eq] at h
    cases h
    exact ⟨List.Pairwise.nil, fun q hq => absurd hq List.not_mem_nil⟩
  | jp nnn =>
    rw [execJp_eq] at h
    cases h
    exact hs.fb
  | add x y =>
    rw [execAdd_frame h]
    exact hs.fb
  | drw x y n => exact execDrw_fb_wf hs.params hs.fb h

/-- An instruction runs only under a clear latch, so moving `pc` breaks no recorded fault. -/
theorem exec_inv {i : Instr} {s t : State} (hs : s.Inv) (hf : s.latch.fault = false) (h : exec i s = .next t) : t.Inv := by
  have hfb := exec_fb_wf hs h
  obtain ⟨v, pc, fb, he⟩ := exec_next i s
  rw [he] at h
  cases h
  exact ⟨hs.params, hs.mem, hfb, .inl (hs.latch.eq_clear hf)⟩

theorem step_inv {s t : State} (hs : s.Inv) (h : step s = .next t) : t.Inv := by
  obtain ⟨-, ⟨-, rfl⟩ | ⟨hf, i, -, he⟩ | ⟨-, hd, rfl⟩⟩ := step_cases h
  · exact hs
  · exact exec_inv hs hf he
  · exact ⟨hs.params, hs.mem, hs.fb, .inr ⟨s.fetchWord, hd, rfl⟩⟩

/-- Settles O42: the core stays as it is, or an instruction ran under a clear latch, or the latch records the present `pc`. -/
theorem stepKeepsTheInvariant : Obligations.StepKeepsTheInvariant := by
  unfold Obligations.StepKeepsTheInvariant
  exact fun _ _ => step_inv

/-! ### What a command can do -/

/-- The state `t` a command may leave on `s` (R108): INITIALIZE and STEP, the four writers, and every other answer, which
leaves the state as it was. -/
inductive CommandEffect (s : State) : Command → State → Prop where
  | init : CommandEffect s .init s.initCore
  | step {t : State} (h : Machine.step s = .next t) : CommandEffect s .step t
  | load (bytes : List Byte) : CommandEffect s (.load bytes) (s.memWriteAll (originAddr s.params) bytes)
  | regWrite (r v : Byte) (k : RegIdx) : CommandEffect s (.regWrite r v) (s.writeReg k v)
  | setI (v : Word) : CommandEffect s (.setI v) (s.setIndex v)
  | memWrite (addr : Word) (v : Byte) : CommandEffect s (.memWrite addr v) (s.memWrite addr.toNat v)
  | unchanged (c : Command) : CommandEffect s c s

theorem CommandEffect.of_whenInitialized {c : Command} {s t : State} {answer : State × Response} {resp : Response}
    (h : whenInitialized s answer = .next (t, resp)) (heff : CommandEffect s c answer.1) : CommandEffect s c t := by
  obtain ⟨-, rfl⟩ := whenInitialized_next h
  exact heff

theorem runCommand_effect {draw : FreeDraw} {c : Command} {s t : State} {resp : Response}
    (h : runCommand draw c s = .next (t, resp)) : CommandEffect s c t := by
  cases c with
  | init =>
    cases h
    exact .init
  | step => exact .step (cmdStep_next h).1
  | load bytes =>
    refine .of_whenInitialized h ?_
    split
    · exact .unchanged _
    · exact .load bytes
  | regWrite r v =>
    refine .of_whenInitialized h ?_
    cases hostReg r with
    | some k => exact .regWrite r v k
    | none => exact .unchanged _
  | setI v => exact .of_whenInitialized h (.setI v)
  | memWrite addr v => exact .of_whenInitialized h (.memWrite addr v)
  | regRead r =>
    refine .of_whenInitialized h ?_
    cases hostReg r with
    | some k => exact .unchanged _
    | none => exact .unchanged _
  | fbRead px py =>
    refine .of_whenInitialized h ?_
    split
    · exact .unchanged _
    · exact .unchanged _
  | pcRead | iRead | memRead _ | faultRead => exact .of_whenInitialized h (.unchanged _)

/-! ### Every command keeps the invariant -/

theorem State.initCore_inv {s : State} (hp : s.params.wf) : s.initCore.Inv :=
  ⟨hp, ⟨List.Pairwise.nil, fun _ hc => absurd hc List.not_mem_nil⟩,
    ⟨List.Pairwise.nil, fun _ hq => absurd hq List.not_mem_nil⟩, .inl rfl⟩

/-- The invariant asks of a rewritten memory only that it is canonical. -/
theorem State.Inv.set_mem {s : State} (hs : s.Inv) {m : Memory} (hm : m.wf) : ({ s with mem := m } : State).Inv :=
  ⟨hs.params, hm, hs.fb, hs.latch⟩

theorem CommandEffect.inv {c : Command} {s t : State} (h : CommandEffect s c t) (hs : s.Inv) : t.Inv := by
  cases h with
  | init => exact State.initCore_inv hs.params
  | step h => exact step_inv hs h
  | load bytes =>
    rw [State.memWriteAll_frame]
    exact hs.set_mem (s.memWriteAll_wf hs.mem _ bytes)
  | memWrite addr v => exact hs.set_mem (s.memWrite_wf hs.mem _ v)
  | regWrite r v k => exact ⟨hs.params, hs.mem, hs.fb, hs.latch⟩
  | setI v => exact ⟨hs.params, hs.mem, hs.fb, hs.latch⟩
  | unchanged => exact hs

/-- Settles O43: by the effect of the command. -/
theorem commandsKeepTheInvariant : Obligations.CommandsKeepTheInvariant := by
  unfold Obligations.CommandsKeepTheInvariant
  exact fun _ _ _ _ _ hs h => (runCommand_effect h).inv hs

/-- Settles O41: reset is an initialised core on a grid of 64 x 32. -/
theorem resetMeetsTheInvariant : Obligations.ResetMeetsTheInvariant := by
  unfold Obligations.ResetMeetsTheInvariant
  rw [State.reset_eq_initCore]
  exact State.initCore_inv (by decide)

/-! ### What STEP never writes, and the writers of each piece of state -/

theorem exec_mem_index {i : Instr} {s t : State} (h : exec i s = .next t) :
    (∀ a, t.memRead a = s.memRead a) ∧ t.i = s.i ∧ s.SameCore t := by
  obtain ⟨v, pc, fb, he⟩ := exec_next i s
  rw [he] at h
  cases h
  exact ⟨fun _ => rfl, rfl, rfl, rfl⟩

theorem step_mem_index {s t : State} (h : step s = .next t) :
    (∀ a, t.memRead a = s.memRead a) ∧ t.i = s.i ∧ s.SameCore t := by
  obtain ⟨-, ⟨-, rfl⟩ | ⟨-, i, -, he⟩ | ⟨-, -, rfl⟩⟩ := step_cases h
  · exact ⟨fun _ => rfl, rfl, rfl, rfl⟩
  · exact exec_mem_index he
  · exact ⟨s.memRead_raiseIllegal _ _, rfl, rfl, rfl⟩

/-- Settles O25: an instruction writes registers, `pc` and pixels, the exception the latch, a faulted core nothing. -/
theorem stepNeverWritesMemoryOrIndex : Obligations.StepNeverWritesMemoryOrIndex := by
  unfold Obligations.StepNeverWritesMemoryOrIndex
  exact fun _ _ => step_mem_index

/-- Settles O33: by the effect of the command; the clause a command's own write breaks excludes that command. -/
theorem eachStateHasOnlyItsWriters : Obligations.EachStateHasOnlyItsWriters := by
  unfold Obligations.EachStateHasOnlyItsWriters
  intro draw c s t resp h hinit
  cases runCommand_effect h with
  | init => exact absurd rfl hinit
  | step h =>
    obtain ⟨hmem, hi, hcore⟩ := step_mem_index h
    exact ⟨fun hc => absurd rfl hc, fun hc => absurd rfl hc, fun _ => hi, fun _ _ => hmem, hcore⟩
  | load bytes =>
    rw [State.memWriteAll_frame]
    exact ⟨fun _ => ⟨rfl, fun _ => rfl, rfl⟩, fun _ _ _ => rfl, fun _ => rfl, fun hc => absurd rfl (hc bytes), rfl, rfl⟩
  | regWrite r v k =>
    exact ⟨fun _ => ⟨rfl, fun _ => rfl, rfl⟩, fun _ hc => absurd rfl (hc r v), fun _ => rfl, fun _ _ _ => rfl, rfl, rfl⟩
  | setI v =>
    exact ⟨fun _ => ⟨rfl, fun _ => rfl, rfl⟩, fun _ _ _ => rfl, fun hc => absurd rfl (hc v), fun _ _ _ => rfl, rfl, rfl⟩
  | memWrite addr v =>
    exact ⟨fun _ => ⟨rfl, fun _ => rfl, rfl⟩, fun _ _ _ => rfl, fun _ => rfl, fun _ hc => absurd rfl (hc addr v), rfl, rfl⟩
  | unchanged => exact ⟨fun _ => ⟨rfl, fun _ => rfl, rfl⟩, fun _ _ _ => rfl, fun _ => rfl, fun _ _ _ => rfl, rfl, rfl⟩

end Sys2Proof.Machine
end

section
/-! PROOFS. DRW (spec/44_sprite_draw.md R98 to R107) for every grid and edge policy: its pixels, its collision flag, where the
policies place a pixel, and when a sprite can select a cell twice. -/

namespace Sys2Proof.Machine

/-! ### Pixels and places -/

/-- Settles O8: the closed form of the composed sprite, on the framebuffer the invariant makes canonical. -/
theorem drwPixelsAreXorOfSelectedBits : Obligations.DrwPixelsAreXorOfSelectedBits := by
  unfold Obligations.DrwPixelsAreXorOfSelectedBits
  exact fun x y n s hs => ⟨_, execDrw_eq x y n s, lit_of_execDrw hs.fb (execDrw_eq x y n s)⟩

section
variable {p : Params}

theorem place_wrap (h : p.edgePolicy = .wrap) (cx cy : Byte) (r c : Nat) :
    place p cx cy r c = some ((cx.toNat + c) % p.fbWidth, (cy.toNat + r) % p.fbHeight) := by
  simp only [place, h]

theorem place_clip (h : p.edgePolicy = .clip) (cx cy : Byte) (r c : Nat) :
    place p cx cy r c = onGrid p (cx.toNat + c) (cy.toNat + r) := by
  simp only [place, h]

theorem place_wrapOriginClip (h : p.edgePolicy = .wrapOriginClip) (cx cy : Byte) (r c : Nat) :
    place p cx cy r c = onGrid p (cx.toNat % p.fbWidth + c) (cy.toNat % p.fbHeight + r) := by
  simp only [place, h]

end

/-- Settles O12: one equation per policy, and the raw coordinate inside the grid. -/
theorem placeFollowsEdgePolicy : Obligations.PlaceFollowsEdgePolicy := by
  unfold Obligations.PlaceFollowsEdgePolicy
  intro p cx cy r c
  refine ⟨fun h => place_wrap h cx cy r c, fun h hout => ?clip, fun h => place_wrapOriginClip h cx cy r c,
    fun hin => place_of_lt hin.1 hin.2⟩
  case clip => rw [place_clip h, onGrid, if_neg hout]

/-! ### A cell selected at most once -/

/-- Reduction keeps apart the offsets of a window no wider than the grid. -/
theorem offset_eq_of_mod_eq {m k a i j : Nat} (hkm : k ≤ m) (hi : i < k) (hj : j < k) (h : (a + i) % m = (a + j) % m) :
    i = j :=
  Nat.ModEq.eq_of_lt_of_lt (Nat.ModEq.add_left_cancel' a h) (by omega) (by omega)

theorem eq_of_onGrid {p : Params} {u v : Nat} {q : Pixel} (h : onGrid p u v = some q) : (u, v) = q := by
  unfold onGrid at h
  split at h
  · exact Option.some.inj h
  · cases h

/-- Two offsets of one sprite that are placed on the same cell are the same offset (R107). -/
theorem place_inj {p : Params} {cx cy : Byte} {n : Nat} {q : Pixel} {o o' : Nat × Nat} (hn : n ≤ 15)
    (hgrid : p.edgePolicy = .wrap → 8 ≤ p.fbWidth ∧ 15 ≤ p.fbHeight) (ho : o ∈ spriteOffsets n) (ho' : o' ∈ spriteOffsets n)
    (h : place p cx cy o.1 o.2 = some q) (h' : place p cx cy o'.1 o'.2 = some q) : o = o' := by
  obtain ⟨hr, hc⟩ := mem_spriteOffsets.mp ho
  obtain ⟨hr', hc'⟩ := mem_spriteOffsets.mp ho'
  cases hpol : p.edgePolicy with
  | wrap =>
    obtain ⟨hw, hh⟩ := hgrid hpol
    rw [place_wrap hpol] at h h'
    obtain ⟨hx, hy⟩ := Prod.mk.inj (Option.some.inj (h.trans h'.symm))
    exact Prod.ext (offset_eq_of_mod_eq (hn.trans hh) hr hr' hy) (offset_eq_of_mod_eq hw hc hc' hx)
  | clip =>
    rw [place_clip hpol] at h h'
    obtain ⟨hx, hy⟩ := Prod.mk.inj ((eq_of_onGrid h).trans (eq_of_onGrid h').symm)
    exact Prod.ext (Nat.add_left_cancel hy) (Nat.add_left_cancel hx)
  | wrapOriginClip =>
    rw [place_wrapOriginClip hpol] at h h'
    obtain ⟨hx, hy⟩ := Prod.mk.inj ((eq_of_onGrid h).trans (eq_of_onGrid h').symm)
    exact Prod.ext (Nat.add_left_cancel hy) (Nat.add_left_cancel hx)

/-- A predicate that at most one element of a duplicate-free list meets counts at most once. -/
theorem countP_le_one_of_unique {α : Type} [DecidableEq α] {l : List α} (hl : l.Nodup) {f : α → Bool}
    (h : ∀ a ∈ l, ∀ b ∈ l, f a = true → f b = true → a = b) : l.countP f ≤ 1 := by
  by_cases hex : ∃ a ∈ l, f a = true
  · obtain ⟨a, ha, hfa⟩ := hex
    calc l.countP f
      _ ≤ l.countP (· == a) := List.countP_mono_left fun b hb hfb => beq_iff_eq.mpr (h b hb a ha hfb hfa)
      _ ≤ 1 := List.nodup_iff_count_le_one.mp hl a
  · rw [List.countP_eq_zero.mpr fun a ha hfa => hex ⟨a, ha, hfa⟩]
    exact Nat.zero_le 1

/-- Settles O13: the hits are counted over distinct offsets, and no two of them are placed on one cell. -/
theorem spriteHitsEachCellAtMostOnce : Obligations.SpriteHitsEachCellAtMostOnce := by
  unfold Obligations.SpriteHitsEachCellAtMostOnce
  intro p cx cy rows n q hgrid
  rw [spriteHits_eq_countP]
  refine countP_le_one_of_unique (nodup_spriteOffsets n.val) fun o ho o' ho' hhit hhit' => ?_
  simp only [offsetHits, Bool.and_eq_true, decide_eq_true_eq] at hhit hhit'
  exact place_inj (by omega) hgrid ho ho' hhit.2 hhit'.2

/-! ### The collision flag -/

/-- A cell that holds `old` and is selected `hits` times goes from 1 to 0 on the way (R102). -/
def CellCollides (old : Bool) (hits : Nat) : Prop := (old = true ∧ 1 ≤ hits) ∨ 2 ≤ hits

/-- One offset first: it collides itself when it hits a cell that is 1, and leaves the cell as it made it to the later ones. -/
theorem cellCollides_add_toNat (old hit : Bool) (hits : Nat) :
    CellCollides old (hits + hit.toNat) ↔ (hit = true ∧ old = true) ∨ CellCollides (old ^^ hit) hits := by
  unfold CellCollides
  cases hit with
  | false => simp
  | true =>
    cases old with
    | true => simp
    | false =>
      simp only [Bool.toNat_true, Bool.xor_true, Bool.not_false, Bool.false_eq_true, false_and, and_false, false_or, true_and]
      omega

theorem drawPixel_collision (p : Params) (cx cy : Byte) (rows : Nat → Byte) (o : Nat × Nat) (acc : Blit) :
    (drawPixel p cx cy (rows o.1) o.1 o.2 acc).2 = true ↔
      acc.2 = true ∨ ∃ q, offsetHits p cx cy rows q o = true ∧ acc.1.lit q = true := by
  obtain ⟨e, hnone⟩ | ⟨q₀, hbit, hplace, e⟩ := drawPixel_cases p cx cy (rows o.1) o.1 o.2 acc
  · have hmiss (q : Pixel) : offsetHits p cx cy rows q o = false := by
      rcases hnone with h | h <;> simp [offsetHits, h]
    simp [e, hmiss]
  · simp [e, xorCell, offsetHits, hbit, hplace]

/-- Offsets drawn in turn report a collision exactly when some cell collides, or one was reported before. -/
theorem collision_foldl_drawPixel (p : Params) (cx cy : Byte) (rows : Nat → Byte) (os : List (Nat × Nat)) {acc : Blit}
    (hs : acc.1.Pairwise Pixel.Before) :
    (os.foldl (fun acc o => drawPixel p cx cy (rows o.1) o.1 o.2 acc) acc).2 = true ↔
      acc.2 = true ∨ ∃ q, CellCollides (acc.1.lit q) (os.countP (offsetHits p cx cy rows q)) := by
  induction os generalizing acc with
  | nil => simp [CellCollides]
  | cons o os ih =>
    obtain ⟨hs', hlit⟩ := drawPixel_pixels p cx cy rows o hs
    have hcount (q : Pixel) : (o :: os).countP (offsetHits p cx cy rows q) =
        os.countP (offsetHits p cx cy rows q) + (offsetHits p cx cy rows q o).toNat := by
      rw [List.countP_cons]
      cases offsetHits p cx cy rows q o <;> rfl
    rw [List.foldl_cons, ih hs', drawPixel_collision, or_assoc, ← exists_or]
    simp only [hlit, hcount, cellCollides_add_toNat]

/-- The collision flag of a whole sprite in closed form (R102, R107). -/
theorem collision_drawSprite (p : Params) (cx cy : Byte) (rows : Nat → Byte) (n : Nat) {fb : Framebuffer}
    (hs : fb.Pairwise Pixel.Before) :
    (drawSprite p cx cy rows n (fb, false)).2 = true ↔ ∃ q, CellCollides (fb.lit q) (spriteHits p cx cy rows n q) := by
  simp [drawSprite_eq_foldl, collision_foldl_drawPixel p cx cy rows _ (acc := (fb, false)) hs, spriteHits_eq_countP]

theorem flagByte_eq_one_iff (f : Bool) : flagByte f = 0x01#8 ↔ f = true := by
  cases f <;> decide

/-- The register file after DRW: VF holds the collision flag, every other register is kept (R107). -/
theorem readReg_of_execDrw {x y : RegIdx} {n : Fin 16} {s t : State} (h : exec (.drw x y n) s = .next t) (r : RegIdx) :
    t.readReg r = if r = flagReg then flagByte (s.drawn x y n).2 else s.readReg r := by
  rw [execDrw_eq] at h
  cases h
  rw [State.readReg_advancePc, State.readReg_writeFlag, State.readReg_setFb]

/-- Settles O9: VF is the flag of the composed sprite, in closed form. -/
theorem drwCollisionFlag : Obligations.DrwCollisionFlag := by
  unfold Obligations.DrwCollisionFlag
  intro x y n s hs
  obtain ⟨t, ht⟩ : ∃ t, exec (.drw x y n) s = .next t := ⟨_, execDrw_eq x y n s⟩
  refine ⟨t, ht, ?_⟩
  rw [readReg_of_execDrw ht, if_pos rfl, flagByte_eq_one_iff]
  exact collision_drawSprite _ _ _ _ _ hs.fb.1

/-! ### Completion and frame -/

/-- Settles O7: VF's clauses are the register file law, `n = 0` draws the empty sprite, the others are the frame's. -/
theorem drwCompletesAndKeepsTheRest : Obligations.DrwCompletesAndKeepsTheRest := by
  unfold Obligations.DrwCompletesAndKeepsTheRest
  intro x y n s
  obtain ⟨t, ht⟩ : ∃ t, exec (.drw x y n) s = .next t := ⟨_, execDrw_eq x y n s⟩
  have reg := readReg_of_execDrw ht
  refine ⟨t, ht, ?flag, fun hn => ?noRows, fun r hr => by rw [reg, if_neg hr], ?frame⟩
  case flag =>
    rw [reg, if_pos rfl]
    cases (s.drawn x y n).2 with
    | false => exact .inl rfl
    | true => exact .inr rfl
  case noRows =>
    subst hn
    have hdrawn : s.drawn x y 0 = (s.fb, false) := drawSprite_zero _ _ _ _ _
    refine ⟨by rw [reg, if_pos rfl, hdrawn]; rfl, fun q => ?_⟩
    rw [execDrw_eq] at ht
    cases ht
    rw [State.advancePc_fb, State.writeFlag_fb, State.setFb_fb, hdrawn]
  case frame =>
    rw [execDrw_frame ht]
    exact ⟨rfl, rfl, fun _ => rfl, rfl, rfl, rfl⟩

end Sys2Proof.Machine
end

section
/-! PROOFS. ADD's arithmetic law (spec/43_register_add.md R96). -/

namespace Sys2Proof.Machine

/-- Settles O6: the wrapped result and the carry are the remainder and the quotient of the sum by 256. -/
theorem addResultAndCarryAreExactSum : Obligations.AddResultAndCarryAreExactSum := by
  unfold Obligations.AddResultAndCarryAreExactSum
  intro x y s hx
  obtain ⟨t, ht⟩ : ∃ t, exec (.add x y) s = .next t := ⟨_, execAdd_eq x y s⟩
  refine ⟨t, ht, ?_⟩
  rw [readReg_of_execAdd ht, readReg_of_execAdd ht, if_neg hx, if_pos rfl, if_pos rfl, addResult_toNat, flagByte_addCarry]
  have ha := (s.readReg x).isLt
  have hb := (s.readReg y).isLt
  split
  · show _ + 256 * 1 = _
    omega
  · show _ + 256 * 0 = _
    omega

end Sys2Proof.Machine
end

section
/-! PROOFS. Fetch, the fixed point of a jump to itself, and the exception (spec/40_fetch_decode_dispatch.md R77 to R84,
spec/60_exceptions.md R129 to R132). -/

namespace Sys2Proof.Machine

/-! ### Fetch -/

/-- Both bytes of the fetch are read at reduced addresses, so a reduced `pc` finds the same two. -/
theorem State.memRead_mod_4096_add (s : State) (a k : Nat) : s.memRead (a % 4096 + k) = s.memRead (a + k) := by
  rw [← s.memRead_mod_4096 (a % 4096 + k), Nat.mod_add_mod, s.memRead_mod_4096]

/-- Settles O21: the reduced value fits 16 bits, and memory is read modulo 4096 in any case. -/
theorem fetchDependsOnPcModuloMemSize : Obligations.FetchDependsOnPcModuloMemSize := by
  unfold Obligations.FetchDependsOnPcModuloMemSize
  intro s p
  have hp : (BitVec.ofNat 16 (p.toNat % 4096)).toNat = p.toNat % 4096 := by
    rw [BitVec.toNat_ofNat]
    omega
  rw [State.setPc_fetchWord, State.setPc_fetchWord, hp, s.memRead_mod_4096, s.memRead_mod_4096_add]

/-! ### STEP -/

/-- Settles O24: a latched core answers with itself, a running one by what its word decodes to. -/
theorem initializedStepAlwaysAnswers : Obligations.InitializedStepAlwaysAnswers := by
  unfold Obligations.InitializedStepAlwaysAnswers
  exact fun _ => step_answers

/-- A `pc` below 4096 is itself a jump target, and its jump is the word 0x1000 + `pc` (R60, R63). -/
theorem encode_jp_setWidth {pc : Word} (h : pc.toNat < 4096) : encode (.jp (pc.setWidth 12)) = 0x1000#16 + pc := by
  apply BitVec.eq_of_toNat_eq
  rw [encode_jp_toNat, BitVec.toNat_setWidth, BitVec.toNat_add, BitVec.toNat_ofNat]
  omega

theorem jumpTarget_setWidth {pc : Word} (h : pc.toNat < 4096) : jumpTarget (pc.setWidth 12) = pc := by
  apply BitVec.eq_of_toNat_eq
  rw [jumpTarget_toNat, BitVec.toNat_setWidth]
  omega

/-- Settles O26: the word decodes to the jump to `pc`, which writes `pc` the value it has. -/
theorem selfJumpIsFixedPoint : Obligations.SelfJumpIsFixedPoint := by
  unfold Obligations.SelfJumpIsFixedPoint
  intro s hs hpc hword
  rw [s.memRead_mod_4096] at hword
  have hfetch : s.fetchWord = encode (.jp (s.pc.setWidth 12)) := hword.trans (encode_jp_setWidth hpc).symm
  have hd : decodeWord s.fetchWord = .instr (.jp (s.pc.setWidth 12)) := by rw [hfetch, decodeWord_encode]
  rw [step_instr hs hd, execJp_eq, jumpTarget_setWidth hpc]
  rfl

/-! ### The exception and the faulted core -/

/-- Settles O27: the exception's one update is the latch, which records the word that was fetched. -/
theorem illegalWordIsPrecise : Obligations.IllegalWordIsPrecise := by
  unfold Obligations.IllegalWordIsPrecise
  intro s w hs hd
  obtain rfl := decodeWord_illegal hd
  exact ⟨_, step_illegal hs hd, s.raiseIllegal_latch _ _, s.raiseIllegal_pc _ _, s.readReg_raiseIllegal _ _,
    s.raiseIllegal_i _ _, s.memRead_raiseIllegal _ _, fun q => by rw [State.raiseIllegal_fb], s.raiseIllegal_params _ _,
    s.raiseIllegal_initialized _ _⟩

/-- Settles O28: the status is read off the latch, which is still set. -/
theorem faultedStepChangesNothing : Obligations.FaultedStepChangesNothing := by
  unfold Obligations.FaultedStepChangesNothing
  intro draw s hi hf
  have hstep := step_latched hi hf
  refine ⟨hstep, ?_⟩
  rw [runCommand_step draw hstep, (stepStatus_eq_faulted_iff s).mpr hf]

end Sys2Proof.Machine
end

section
/-! PROOFS. The host port (spec/45_host_interface.md R108 to R126): what each command answers on an initialised core, the
refusal of every command but INITIALIZE before that, and the boot sequence (spec/70_reset_and_hazards.md R147). -/

namespace Sys2Proof.Machine

/-! ### INITIALIZE, and the commands before it -/

theorem State.initCore_memRead (s : State) (a : Nat) : s.initCore.memRead a = 0x00#8 := rfl

/-- Settles O2: the state is `initCore`, field by field. -/
theorem initializeClearsEverythingElse : Obligations.InitializeClearsEverythingElse := by
  unfold Obligations.InitializeClearsEverythingElse
  exact fun draw s => ⟨s.initCore, runCommand_init draw s, s.initCore_memRead, Framebuffer.lit_blank, s.initCore_i,
    s.initCore_latch, s.initCore_initialized, s.initCore_params⟩

theorem whenInitialized_refused {s : State} (hi : s.initialized = false) (answer : State × Response) :
    whenInitialized s answer = .refused .notInitialized := by
  rw [whenInitialized, hi]
  rfl

/-- Settles O31: STEP asks for the initialised bit itself, every other command through the guard. -/
theorem uninitializedRefusesEveryOtherCommand : Obligations.UninitializedRefusesEveryOtherCommand := by
  unfold Obligations.UninitializedRefusesEveryOtherCommand
  intro draw c s hi
  refine ⟨step_uninitialized hi, fun hinit => ?_⟩
  cases c with
  | init => exact absurd rfl hinit
  | step => rw [runCommand, cmdStep, step_uninitialized hi]
  | load _ | regRead _ | regWrite _ _ | pcRead | iRead | setI _ | memRead _ | memWrite _ _ | fbRead _ _ | faultRead =>
    exact whenInitialized_refused hi _

section
variable {s : State} (hi : s.initialized = true) (draw : FreeDraw)
include hi

/-! ### Registers -/

theorem runCommand_regRead_of_some {r : Byte} {k : RegIdx} (hk : hostReg r = some k) :
    runCommand draw (.regRead r) s = .next (s, .reg .ok (s.readReg k)) := by
  simp only [runCommand, cmdRegRead, hk, whenInitialized_of hi]

theorem runCommand_regRead_of_none {r : Byte} (hr : hostReg r = none) :
    runCommand draw (.regRead r) s = .next (s, .reg .invalidRegister draw.byte) := by
  simp only [runCommand, cmdRegRead, hr, whenInitialized_of hi]

theorem runCommand_regWrite_of_some {r : Byte} {k : RegIdx} (hk : hostReg r = some k) (v : Byte) :
    runCommand draw (.regWrite r v) s = .next (s.writeReg k v, .status .ok) := by
  simp only [runCommand, cmdRegWrite, hk, whenInitialized_of hi]

theorem runCommand_regWrite_of_none {r : Byte} (hr : hostReg r = none) (v : Byte) :
    runCommand draw (.regWrite r v) s = .next (s, .status .invalidRegister) := by
  simp only [runCommand, cmdRegWrite, hr, whenInitialized_of hi]

/-! ### Memory, index, `pc` and latch -/

theorem runCommand_memRead (a : Word) : runCommand draw (.memRead a) s = .next (s, .byte (s.memRead a.toNat)) :=
  whenInitialized_of hi _

theorem runCommand_memWrite (a : Word) (v : Byte) :
    runCommand draw (.memWrite a v) s = .next (s.memWrite a.toNat v, .status .ok) :=
  whenInitialized_of hi _

theorem runCommand_setI (v : Word) : runCommand draw (.setI v) s = .next (s.setIndex v, .status .ok) :=
  whenInitialized_of hi _

theorem runCommand_iRead : runCommand draw .iRead s = .next (s, .word s.i) := whenInitialized_of hi _

theorem runCommand_pcRead : runCommand draw .pcRead s = .next (s, .word s.pc) := whenInitialized_of hi _

theorem runCommand_faultRead : runCommand draw .faultRead s = .next (s, .latch s.latch) := whenInitialized_of hi _

/-! ### LOAD and FB_READ -/

theorem runCommand_load_of_oversized {bytes : List Byte} (hbig : maxLoad s.params < bytes.length) :
    runCommand draw (.load bytes) s = .next (s, .status .loadTooLarge) := by
  simp only [runCommand, cmdLoad, if_pos hbig, whenInitialized_of hi]

theorem runCommand_fbRead_of_on_grid {px py : Byte} (h : px.toNat < s.params.fbWidth ∧ py.toNat < s.params.fbHeight) :
    runCommand draw (.fbRead px py) s = .next (s, .pixel .ok (s.fb.lit (px.toNat, py.toNat))) := by
  simp only [runCommand, cmdFbRead, if_pos h, whenInitialized_of hi]

theorem runCommand_fbRead_of_off_grid {px py : Byte} (h : ¬ (px.toNat < s.params.fbWidth ∧ py.toNat < s.params.fbHeight)) :
    runCommand draw (.fbRead px py) s = .next (s, .pixel .invalidCoordinate draw.bit) := by
  simp only [runCommand, cmdFbRead, if_neg h, whenInitialized_of hi]

end

theorem hostReg_of_eq {r : Byte} {k : RegIdx} (h : r.toNat = k.val) : hostReg r = some k := by
  have hr : r.toNat < 16 := h ▸ k.isLt
  rw [hostReg, dif_pos hr]
  exact congrArg some (Fin.ext h)

theorem hostReg_of_ge {r : Byte} (h : 16 ≤ r.toNat) : hostReg r = none :=
  dif_neg (Nat.not_lt.mpr h)

/-- Settles O34: the index decides between the two equations of each register command; a write is read back by the register
file law. -/
theorem registerPortReadsBackWrites : Obligations.RegisterPortReadsBackWrites := by
  unfold Obligations.RegisterPortReadsBackWrites
  intro draw r v s hi
  refine ⟨fun k hk => ?valid, fun hr => ?invalid⟩
  case valid =>
    have hreg := hostReg_of_eq hk
    refine ⟨s.writeReg k v, runCommand_regWrite_of_some hi draw hreg v, ?readBack, fun q hq => ?others, rfl, rfl,
      s.memRead_writeReg k v, fun _ => rfl, rfl⟩
    case readBack =>
      rw [runCommand_regRead_of_some (by rw [State.writeReg_initialized, hi]) draw hreg, State.readReg_writeReg_same]
    case others => rw [State.readReg_writeReg, if_neg hq]
  case invalid =>
    have hreg := hostReg_of_ge hr
    exact ⟨runCommand_regWrite_of_none hi draw hreg v, runCommand_regRead_of_none hi draw hreg⟩

/-- Settles O36: the length is compared with MAX_LOAD before any byte is written. -/
theorem oversizedLoadWritesNothing : Obligations.OversizedLoadWritesNothing := by
  unfold Obligations.OversizedLoadWritesNothing
  exact fun draw _ _ hi hbig => runCommand_load_of_oversized hi draw hbig

/-- Settles O37: MEM_READ answers the byte, and a byte after a write is the memory law modulo 4096. -/
theorem memoryPortReadsBackWrites : Obligations.MemoryPortReadsBackWrites := by
  unfold Obligations.MemoryPortReadsBackWrites
  intro draw addr v s hinv hi
  refine ⟨s.memWrite addr.toNat v, runCommand_memWrite hi draw addr v, fun a => ?readBack, s.readReg_memWrite _ v, rfl, rfl,
    fun _ => rfl, rfl⟩
  rw [runCommand_memRead (by rw [State.memWrite_initialized, hi]) draw, s.memRead_memWrite hinv.mem]
  rfl

/-- Settles O38: each port by its own equation, I_READ on the state that SET_I leaves. -/
theorem indexPcAndLatchPorts : Obligations.IndexPcAndLatchPorts := by
  unfold Obligations.IndexPcAndLatchPorts
  exact fun draw v s hi => ⟨⟨s.setIndex v, runCommand_setI hi draw v, runCommand_iRead (s := s.setIndex v) hi draw⟩,
    runCommand_pcRead hi draw, runCommand_faultRead hi draw⟩

/-- Settles O39: the two clauses are the two branches of the read. -/
theorem framebufferPortReadsTheGrid : Obligations.FramebufferPortReadsTheGrid := by
  unfold Obligations.FramebufferPortReadsTheGrid
  exact fun draw px py s hi => ⟨runCommand_fbRead_of_on_grid hi draw,
    fun hoff => runCommand_fbRead_of_off_grid hi draw (by omega)⟩

/-! ### The boot sequence -/

/-- INITIALIZE, then LOAD of an image that fits, as one run (R147). -/
theorem runCommands_boot (d d' : FreeDraw) (s : State) {bytes : List Byte} (hfit : bytes.length ≤ maxLoad s.params) :
    runCommands [(d, .init), (d', .load bytes)] s = .next (s.initCore.memWriteAll (originAddr s.params) bytes) := by
  simp only [runCommands, runCommand_init, runCommand_load_of_fits d' s.initCore_initialized hfit, State.initCore_params]

/-- The boot sequence leaves a core that runs, its first fetch at the origin. -/
theorem boot_running (s : State) (bytes : List Byte) : (s.initCore.memWriteAll (originAddr s.params) bytes).Running := by
  rw [State.memWriteAll_frame]
  exact ⟨rfl, rfl⟩

theorem boot_pc_toNat (s : State) (bytes : List Byte) :
    (s.initCore.memWriteAll (originAddr s.params) bytes).pc.toNat = originAddr s.params := by
  rw [State.memWriteAll_frame]
  exact originPc_toNat s.params

/-- An image that begins with a word's two bytes is fetched first as that word (R73). -/
theorem boot_fetchWord (s : State) (w : Word) {rest : List Byte} (hfit : rest.length + 2 ≤ maxLoad s.params) :
    (s.initCore.memWriteAll (originAddr s.params) (bytesOfWord w ++ rest)).fetchWord = w := by
  have hmem : s.initCore.mem.wf := reset_mem_wf
  have hend : originAddr s.params + (bytesOfWord w ++ rest).length ≤ memSize := origin_add_le_memSize hfit
  rw [State.fetchWord, boot_pc_toNat]
  have hhi := State.memRead_memWriteAll_inside (k := 0) hmem hend (Nat.succ_pos _)
  have hlo := State.memRead_memWriteAll_inside (k := 1) hmem hend (Nat.succ_lt_succ (Nat.succ_pos _))
  rw [Nat.add_zero] at hhi
  rw [hhi, hlo]
  exact wordOfBytes_hi_lo w

/-- Settles O40: the booted core runs, and its first word is the encoding, which decodes back. -/
theorem firstLoadedInstructionRuns : Obligations.FirstLoadedInstructionRuns := by
  unfold Obligations.FirstLoadedInstructionRuns
  intro d d' s i rest hfit
  refine ⟨_, runCommands_boot d d' s hfit, boot_pc_toNat s _, step_instr (boot_running s _) ?_⟩
  rw [boot_fetchWord s (encode i) hfit, decodeWord_encode]

end Sys2Proof.Machine
end
